-- ==== Sys2Proof/Word.lean ====
section
/-! DEFINITION. The bit widths the spec gives the block's values (00_scope.md R7, R8; 30_encoding.md R81). -/

namespace Sys2Proof

/-- One byte of the data path, `DATA_WIDTH = 8` (R8). -/
abbrev Byte := BitVec 8

/-- A bus address, `ADDR_WIDTH = 32` (R8). -/
abbrev Addr := BitVec 32

/-- The low 16 bits of a bus address (R84 `offset`). -/
abbrev Offset := BitVec 16

/-- A position in the contiguous array, `{bank, offset}` (R50). A Small device uses the lower half. -/
abbrev ArrayIndex := BitVec 17

/-- The 45-bit decode key (R81). -/
abbrev Key := BitVec 45

end Sys2Proof
end

