-- ==== Sys2Proof/Config.lean ====
section
/-! DEFINITION. What construction fixes (00_scope.md R6, R7) and the decoder's phases (10_state.md R25).
The spec leaves no value open, so there is no free value here. -/

namespace Sys2Proof

/-- `P_CAPACITY`, the chip variant: 64 KiB in one bank or 128 KiB in two (R3, R6). -/
inductive Capacity where
  | small
  | large
deriving DecidableEq, Repr

/-- `NUM_BANKS` (R7). -/
def Capacity.numBanks : Capacity → Nat
  | .small => 1
  | .large => 2

/-- `BANK_SIZE`, bytes per bank (R7). -/
def bankSize : Nat := 65536

/-- `SECTOR_SIZE`, bytes per sector (R7). -/
def sectorSize : Nat := 4096

/-- `CAPACITY_BYTES` (R7). -/
def Capacity.bytes (c : Capacity) : Nat := c.numBanks * bankSize

/-- "the decoder's current position in the command grammar" (R25). -/
inductive Phase where
  | idle
  | unlock1
  | commandReady
  | extended
deriving DecidableEq, Repr

end Sys2Proof
end

