-- ==== Sys2Proof/Machine/Constants.lean ====
section
/-! DEFINITION. The protocol constants under the names of 00_scope.md R9, and the construction
parameters of `State.reset`. The literals are the source's and unaudited (R9, log 17). -/

namespace Sys2Proof.Machine

/-- `UNLOCK_ADDR_1` (R9). -/
def unlockAddr1 : Addr := 0x0E005555#32
/-- `UNLOCK_DATA_1` (R9). -/
def unlockData1 : Byte := 0xAA#8
/-- `UNLOCK_ADDR_2` (R9). -/
def unlockAddr2 : Addr := 0x0E002AAA#32
/-- `UNLOCK_DATA_2` (R9). -/
def unlockData2 : Byte := 0x55#8
/-- `CMD_ADDR` (R9). -/
def cmdAddr : Addr := 0x0E005555#32
/-- `CMD_READ_CHIP_ID` (R9). -/
def codeReadChipId : Byte := 0x90#8
/-- `CMD_FINISH_CHIP_ID` (R9). -/
def codeFinishChipId : Byte := 0xF0#8
/-- `CMD_ERASE` (R9). -/
def codeErase : Byte := 0x80#8
/-- `CMD_ERASE_CHIP` (R9). -/
def codeEraseChip : Byte := 0x10#8
/-- `CMD_WRITE_BYTE` (R9). -/
def codeWriteByte : Byte := 0xA0#8
/-- `CMD_SELECT_BANK` (R9). -/
def codeSelectBank : Byte := 0xB0#8
/-- `SECTOR_ERASE_DATA` (R9). -/
def sectorEraseData : Byte := 0x30#8
/-- `SECTOR_BASE` (R9). -/
def sectorBase : Addr := 0x0E000000#32
/-- `SECTOR_FIELD_MASK` (R9). -/
def sectorFieldMask : Addr := 0x0000F000#32
/-- `BANK_SELECT_ADDR` (R9). -/
def bankSelectAddr : Addr := 0x0E000000#32
/-- `ERASED`, the erased-cell value (R9, R64). -/
def erased : Byte := 0xFF#8

/-- `ID_LARGE` and `ID_SMALL` (R9): the identifier byte at offset 0 (`second = false`) or 1 (`second = true`). -/
def identifierByte : Capacity → (second : Bool) → Byte
  | .large, false => 0xC2#8
  | .large, true  => 0x09#8
  | .small, false => 0xBF#8
  | .small, true  => 0xD4#8

/-- The `P_CAPACITY` that `State.reset` is constructed with.
DESIGN CHOICE: the spec leaves it a parameter (R6); log 5. -/
def constructedCapacity : Capacity := .large

/-- The `P_STRICT_UNLOCK` that `State.reset` is constructed with: the spec's default (R8, D8); log 6. -/
def constructedStrictUnlock : Bool := false

end Sys2Proof.Machine
end

