-- ==== Sys2Proof/Machine/Operands.lean ====
section
/-! DEFINITION. The operand fields of 30_encoding.md R84 and the array index of 20_memory.md R50. -/

namespace Sys2Proof.Machine

/-- `offset = address[15:0]` (R84, R52, R53). -/
def offsetOf (addr : Addr) : Offset := addr.extractLsb' 0 16

/-- `sector = address[15:12]` (R84). -/
def sectorOf (addr : Addr) : BitVec 4 := addr.extractLsb' 12 4

/-- `sectorMatch`: `(address & 0xFFFF0FFF) == 0x0E000000` (R84, R56). -/
def sectorMatch (addr : Addr) : Bool := addr &&& ~~~sectorFieldMask == sectorBase

/-- The bus address of a sector's first byte: `0x0E000000 | s << 12` (R91, R139). -/
def sectorAddr (sector : BitVec 4) : Addr := 0x0E00#16 ++ sector ++ 0#12

/-- `bankBit = value[0]` (R84). -/
def bankBit (value : Byte) : BitVec 1 := value.extractLsb' 0 1

/-- The test `address[15:1] == 0` of the identifier read (R84, R190). -/
def isIdOffset (addr : Addr) : Bool := addr.extractLsb' 1 15 == 0#15

/-- `idByte = address[0]` (R84): which of the two identifier bytes. -/
def idByte (addr : Addr) : Bool := addr.getLsbD 0

/-- The array index of offset `offset` in bank `bank`, `{bank, offset}` (R50). -/
def arrayIndex (bank : BitVec 1) (offset : Offset) : ArrayIndex := bank ++ offset

/-- The array index of the first byte of a sector, `{bank, sector, 0x000}` (R54, R139). -/
def sectorIndex (bank : BitVec 1) (sector : BitVec 4) : ArrayIndex := bank ++ sector ++ 0#12

/-- The six values of the command table at `CMD_ADDR` (R87); any other is CMD_UNKNOWN (R138). -/
def isCommandCode (value : Byte) : Bool :=
  value == codeEraseChip || value == codeErase || value == codeReadChipId ||
  value == codeWriteByte || value == codeSelectBank || value == codeFinishChipId

/-- The first unlock write: `UNLOCK_DATA_1` at `UNLOCK_ADDR_1` (R111). -/
def isUnlockWrite1 (addr : Addr) (value : Byte) : Bool := addr == unlockAddr1 && value == unlockData1

/-- The second unlock write: `UNLOCK_DATA_2` at `UNLOCK_ADDR_2` (R113). -/
def isUnlockWrite2 (addr : Addr) (value : Byte) : Bool := addr == unlockAddr2 && value == unlockData2

/-- The sector-erase write: `SECTOR_ERASE_DATA` at a sector address (R139). -/
def isSectorEraseWrite (addr : Addr) (value : Byte) : Bool := sectorMatch addr && value == sectorEraseData

end Sys2Proof.Machine
end

