-- ==== Sys2Proof/Syntax.lean ====
section
/-! DEFINITION. The 22 rows of the decode table (30_encoding.md R86), one constructor each, with the
operands the row leaves free (R84). -/

namespace Sys2Proof

/-- One transaction as the decode table reads it: a row and its operands. -/
inductive Instr where
  /-- READ_ID (R190): a Read of offset 0 or 1 in identification mode. -/
  | readId (addr : Addr)
  /-- READ_ARRAY (R191): an ordinary Read. -/
  | readArray (addr : Addr)
  /-- UNLOCK_1 (R111): 0xAA at 0x0E005555 in Idle. -/
  | unlock1
  /-- IDLE_IGNORE (R112): any other Write in Idle. -/
  | idleIgnore (addr : Addr) (value : Byte)
  /-- UNLOCK_2 (R113): 0x55 at 0x0E002AAA in Unlock1. -/
  | unlock2
  /-- UNLOCK1_IGNORE (R114): any other Write in Unlock1. -/
  | unlock1Ignore (addr : Addr) (value : Byte)
  /-- CMD_READ_CHIP_ID (R131): 0x90 at `CMD_ADDR`. -/
  | cmdReadChipId
  /-- CMD_FINISH_CHIP_ID (R132): 0xF0 at `CMD_ADDR`. -/
  | cmdFinishChipId
  /-- CMD_ERASE (R133): 0x80 at `CMD_ADDR`. -/
  | cmdErase
  /-- CMD_ERASE_CHIP (R134): 0x10 at `CMD_ADDR`. -/
  | cmdEraseChip
  /-- CMD_WRITE_BYTE (R135): 0xA0 at `CMD_ADDR`. -/
  | cmdWriteByte
  /-- CMD_SELECT_BANK (R136): 0xB0 at `CMD_ADDR` on a Large device. -/
  | cmdSelectBank
  /-- CMD_SELECT_BANK_IGNORED (R137): 0xB0 at `CMD_ADDR` on a Small device. -/
  | cmdSelectBankIgnored
  /-- CMD_UNKNOWN (R138): any other value at `CMD_ADDR`. -/
  | cmdUnknown (value : Byte)
  /-- CMD_ERASE_SECTOR (R139): 0x30 at the base address of `sector`. -/
  | cmdEraseSector (sector : BitVec 4)
  /-- CMD_DISCARD (R140): any other Write in CommandReady. -/
  | cmdDiscard (addr : Addr) (value : Byte)
  /-- EXT_PROGRAM (R171): the payload of a byte program. -/
  | extProgram (addr : Addr) (value : Byte)
  /-- EXT_SELECT_BANK (R172): the payload of a bank select, at `BANK_SELECT_ADDR`. -/
  | extSelectBank (value : Byte)
  /-- EXT_DISCARD (R173): a payload that neither programs nor selects. -/
  | extDiscard (addr : Addr) (value : Byte)
  /-- RESET (R250). -/
  | reset
  /-- RAW_READ (R202): read one image byte. -/
  | rawRead (index : ArrayIndex)
  /-- RAW_WRITE (R203): write one image byte. -/
  | rawWrite (index : ArrayIndex) (value : Byte)
deriving DecidableEq, Repr

end Sys2Proof
end

