-- ==== Sys2Proof/WellFormed.lean ====
section
/-! DEFINITION. The operand values for which an instruction is a row of its own: a catch-all row does not
hold the operands of the rows before it (30_encoding.md R82, R86). -/

namespace Sys2Proof

open Sys2Proof.Machine

/-- The operands are those of the instruction's own row. What a row asks of the state is not syntax:
see `Instr.admitted` in Safety.lean. -/
def Instr.wellFormed : Instr → Bool
  | .readId addr => isIdOffset addr
  | .readArray _ => true
  | .unlock1 => true
  | .idleIgnore addr value => !isUnlockWrite1 addr value
  | .unlock2 => true
  | .unlock1Ignore addr value => !isUnlockWrite2 addr value
  | .cmdReadChipId => true
  | .cmdFinishChipId => true
  | .cmdErase => true
  | .cmdEraseChip => true
  | .cmdWriteByte => true
  | .cmdSelectBank => true
  | .cmdSelectBankIgnored => true
  | .cmdUnknown value => !isCommandCode value
  | .cmdEraseSector _ => true
  | .cmdDiscard addr value => addr != cmdAddr && !isSectorEraseWrite addr value
  | .extProgram _ _ => true
  | .extSelectBank _ => true
  | .extDiscard _ _ => true
  | .reset => true
  | .rawRead _ => true
  | .rawWrite _ _ => true

end Sys2Proof
end

