-- ==== Sys2Proof/Decode.lean ====
section
/-! DEFINITION. The decode key (30_encoding.md R81), the decode table (R86), the decoder (R82), the encoder,
and the decoder of the host's table words. -/

namespace Sys2Proof

open Sys2Proof.Machine

/-- The binary encoding of `phase` in the key (R25, decision D5). -/
def Phase.code : Phase → BitVec 2
  | .idle => 0b00#2
  | .unlock1 => 0b01#2
  | .commandReady => 0b10#2
  | .extended => 0b11#2

/-- The phase a two-bit code stands for (R25). -/
def Phase.ofCode (code : BitVec 2) : Phase :=
  if code = 0b00#2 then .idle else if code = 0b01#2 then .unlock1
  else if code = 0b10#2 then .commandReady else .extended

/-- `kind` READ (R81). -/
def kindRead : BitVec 3 := 0b000#3
/-- `kind` WRITE (R81). -/
def kindWrite : BitVec 3 := 0b001#3
/-- `kind` RESET (R81). -/
def kindReset : BitVec 3 := 0b010#3
/-- `kind` RAW_READ (R81). -/
def kindRawRead : BitVec 3 := 0b011#3
/-- `kind` RAW_WRITE (R81). -/
def kindRawWrite : BitVec 3 := 0b100#3

/-- The key `{kind, phase, address, value}` (R81). -/
def makeKey (kind : BitVec 3) (phase : Phase) (addr : Addr) (value : Byte) : Key :=
  kind ++ phase.code ++ addr ++ value

/-- Key bits [44:42] (R81). -/
def keyKind (key : Key) : BitVec 3 := key.extractLsb' 42 3
/-- Key bits [41:40] (R81). -/
def keyPhase (key : Key) : BitVec 2 := key.extractLsb' 40 2
/-- Key bits [39:8] (R81). -/
def keyAddr (key : Key) : Addr := key.extractLsb' 8 32
/-- Key bits [7:0] (R81). -/
def keyValue (key : Key) : Byte := key.extractLsb' 0 8
/-- The array index in the address field of a raw transaction, `zext_32(index)` (R81). -/
def keyIndex (key : Key) : ArrayIndex := (keyAddr key).extractLsb' 0 17

/-- What the `conditions` column of the table reads of the state (R82, R86). -/
structure DecodeContext where
  capacity           : Capacity
  identificationMode : Bool
  writeArmed         : Bool
  bankSelectArmed    : Bool
deriving DecidableEq, Repr

/-- The entries of the `conditions` column (R86). -/
inductive Condition where
  | always
  | identificationMode
  | capacityLarge
  | capacitySmall
  | writeArmed
  | bankSelectArmed
  | indexInRange
deriving DecidableEq, Repr

/-- A condition holds of the state's context and the key (R82); `index < CAPACITY_BYTES` is R202 and R203's. -/
def Condition.holds (c : Condition) (ctx : DecodeContext) (key : Key) : Bool :=
  match c with
  | .always => true
  | .identificationMode => ctx.identificationMode
  | .capacityLarge => ctx.capacity == .large
  | .capacitySmall => ctx.capacity == .small
  | .writeArmed => ctx.writeArmed
  | .bankSelectArmed => ctx.bankSelectArmed
  | .indexInRange => (keyAddr key).toNat < ctx.capacity.bytes

/-- One row of the decode table (R86): its match and mask, its condition, and the instruction its operands make. -/
structure Row where
  pattern   : Key
  mask      : Key
  condition : Condition
  build     : Key → Instr

/-- `(key & mask) == match` and the condition holds (R82). -/
def Row.selects (row : Row) (ctx : DecodeContext) (key : Key) : Bool :=
  key &&& row.mask == row.pattern && row.condition.holds ctx key

/-- Rows 1 and 2 (R86). -/
def readRows : List Row :=
  [⟨0x000000000000#45, 0x1C0000FFFE00#45, .identificationMode, fun k => .readId (keyAddr k)⟩,
   ⟨0x000000000000#45, 0x1C0000000000#45, .always, fun k => .readArray (keyAddr k)⟩]

/-- Rows 3 to 6 (R86). -/
def unlockRows : List Row :=
  [⟨0x040E005555AA#45, 0x1FFFFFFFFFFF#45, .always, fun _ => .unlock1⟩,
   ⟨0x040000000000#45, 0x1F0000000000#45, .always, fun k => .idleIgnore (keyAddr k) (keyValue k)⟩,
   ⟨0x050E002AAA55#45, 0x1FFFFFFFFFFF#45, .always, fun _ => .unlock2⟩,
   ⟨0x050000000000#45, 0x1F0000000000#45, .always, fun k => .unlock1Ignore (keyAddr k) (keyValue k)⟩]

/-- Rows 7 to 16 (R86). -/
def commandRows : List Row :=
  [⟨0x060E00555590#45, 0x1FFFFFFFFFFF#45, .always, fun _ => .cmdReadChipId⟩,
   ⟨0x060E005555F0#45, 0x1FFFFFFFFFFF#45, .always, fun _ => .cmdFinishChipId⟩,
   ⟨0x060E00555580#45, 0x1FFFFFFFFFFF#45, .always, fun _ => .cmdErase⟩,
   ⟨0x060E00555510#45, 0x1FFFFFFFFFFF#45, .always, fun _ => .cmdEraseChip⟩,
   ⟨0x060E005555A0#45, 0x1FFFFFFFFFFF#45, .always, fun _ => .cmdWriteByte⟩,
   ⟨0x060E005555B0#45, 0x1FFFFFFFFFFF#45, .capacityLarge, fun _ => .cmdSelectBank⟩,
   ⟨0x060E005555B0#45, 0x1FFFFFFFFFFF#45, .capacitySmall, fun _ => .cmdSelectBankIgnored⟩,
   ⟨0x060E00555500#45, 0x1FFFFFFFFF00#45, .always, fun k => .cmdUnknown (keyValue k)⟩,
   ⟨0x060E00000030#45, 0x1FFFFF0FFFFF#45, .always, fun k => .cmdEraseSector (sectorOf (keyAddr k))⟩,
   ⟨0x060000000000#45, 0x1F0000000000#45, .always, fun k => .cmdDiscard (keyAddr k) (keyValue k)⟩]

/-- Rows 17 to 19 (R86). -/
def payloadRows : List Row :=
  [⟨0x070000000000#45, 0x1F0000000000#45, .writeArmed, fun k => .extProgram (keyAddr k) (keyValue k)⟩,
   ⟨0x070E00000000#45, 0x1FFFFFFFFF00#45, .bankSelectArmed, fun k => .extSelectBank (keyValue k)⟩,
   ⟨0x070000000000#45, 0x1F0000000000#45, .always, fun k => .extDiscard (keyAddr k) (keyValue k)⟩]

/-- Rows 20 to 22 (R86). -/
def otherRows : List Row :=
  [⟨0x080000000000#45, 0x1C0000000000#45, .always, fun _ => .reset⟩,
   ⟨0x0C0000000000#45, 0x1C0000000000#45, .indexInRange, fun k => .rawRead (keyIndex k)⟩,
   ⟨0x100000000000#45, 0x1C0000000000#45, .indexInRange, fun k => .rawWrite (keyIndex k) (keyValue k)⟩]

/-- The decode table in priority order (R86). -/
def decodeTable : List Row := readRows ++ unlockRows ++ commandRows ++ payloadRows ++ otherRows

/-- Why a key is no transaction of the block. -/
inductive DecodeError where
  /-- Kinds 101, 110 and 111 (R88). -/
  | notATransaction
  /-- A raw index at or above `CAPACITY_BYTES` (R209). -/
  | rawIndexOutOfRange
deriving DecidableEq, Repr

/-- Decode rule (R82): the first row that matches the key and whose condition holds. With no row, the key
has a kind the table does not list (R88), or is a raw transaction whose index is out of range (R209). -/
def decode (ctx : DecodeContext) (key : Key) : Except DecodeError Instr :=
  match decodeTable.find? (fun row => row.selects ctx key) with
  | some row => .ok (row.build key)
  | none => if keyKind key = kindRawRead ∨ keyKind key = kindRawWrite then .error .rawIndexOutOfRange
            else .error .notATransaction

/-- The key of an instruction (R80, R81, R86). The rows for WRITE fix the phase; the other kinds act in every
phase, and `phase` is the one they are presented in. -/
def encode (phase : Phase) : Instr → Key
  | .readId addr => makeKey kindRead phase addr 0#8
  | .readArray addr => makeKey kindRead phase addr 0#8
  | .unlock1 => makeKey kindWrite .idle unlockAddr1 unlockData1
  | .idleIgnore addr value => makeKey kindWrite .idle addr value
  | .unlock2 => makeKey kindWrite .unlock1 unlockAddr2 unlockData2
  | .unlock1Ignore addr value => makeKey kindWrite .unlock1 addr value
  | .cmdReadChipId => makeKey kindWrite .commandReady cmdAddr codeReadChipId
  | .cmdFinishChipId => makeKey kindWrite .commandReady cmdAddr codeFinishChipId
  | .cmdErase => makeKey kindWrite .commandReady cmdAddr codeErase
  | .cmdEraseChip => makeKey kindWrite .commandReady cmdAddr codeEraseChip
  | .cmdWriteByte => makeKey kindWrite .commandReady cmdAddr codeWriteByte
  | .cmdSelectBank => makeKey kindWrite .commandReady cmdAddr codeSelectBank
  | .cmdSelectBankIgnored => makeKey kindWrite .commandReady cmdAddr codeSelectBank
  | .cmdUnknown value => makeKey kindWrite .commandReady cmdAddr value
  | .cmdEraseSector sector => makeKey kindWrite .commandReady (sectorAddr sector) sectorEraseData
  | .cmdDiscard addr value => makeKey kindWrite .commandReady addr value
  | .extProgram addr value => makeKey kindWrite .extended addr value
  | .extSelectBank value => makeKey kindWrite .extended bankSelectAddr value
  | .extDiscard addr value => makeKey kindWrite .extended addr value
  | .reset => makeKey kindReset phase 0#32 0#8
  | .rawRead index => makeKey kindRawRead phase (index.setWidth 32) 0#8
  | .rawWrite index value => makeKey kindRawWrite phase (index.setWidth 32) value

/-- The key a table word stands for: its low `nbits` bits, where bits above 44 are no part of a key (R81). -/
def tableKey? (nbits w : Nat) : Option Key :=
  if w % 2 ^ nbits < 2 ^ 45 then some (BitVec.ofNat 45 (w % 2 ^ nbits)) else none

/-- The row conditions under which a table word is read: a word alone says nothing of the state's flags, and
some rows differ in those only. The word stands for the row with the narrowest mask that matches it, and among
equal masks for the earliest; these are that row's conditions. DESIGN CHOICE, log 7. -/
def tableContext (key : Key) : DecodeContext where
  capacity := constructedCapacity
  identificationMode := keyKind key == kindRead && isIdOffset (keyAddr key)
  writeArmed := keyKind key == kindWrite && keyPhase key == Phase.extended.code && keyAddr key != bankSelectAddr
  bankSelectArmed := keyKind key == kindWrite && keyPhase key == Phase.extended.code && keyAddr key == bankSelectAddr

/-- The instruction the decoder reads from a table word, under `tableContext` (log 7). -/
def decodeTableWord (nbits w : Nat) : Option Instr :=
  match tableKey? nbits w with
  | none => none
  | some key =>
    match decode (tableContext key) key with
    | .ok i => some i
    | .error _ => none

end Sys2Proof
end

