-- ==== Sys2Proof/Machine/State.lean ====
section
/-! DEFINITION. The block's whole state (10_state.md R30), the reasons a step can stop, the unreset state the block
starts in (70_reset_and_hazards.md R254), and the state after RESET (R253). -/

namespace Sys2Proof.Machine

/-- The array contents: the bytes that differ from `erased`, by array index, in rising order (log 10).
An index not listed reads as 0xFF, the value RESET gives every byte (R250). -/
abbrev Memory := List Host.Cell

/-- The canonical form: array indices strictly rising, and no entry equal to what an unlisted index reads as. -/
abbrev Memory.wf (m : Memory) : Prop :=
  m.Pairwise (fun c d => c.1 < d.1) ∧ ∀ c ∈ m, c.2 ≠ erased

/-- One request as it is presented at the block's port: the key's fields but for `phase` (R80, R81). `kind` keeps
its three bits, since a request of kind 101, 110 or 111 can be presented and is refused (R88). -/
structure Request where
  kind    : BitVec 3
  address : Addr
  value   : Byte
deriving DecidableEq, Repr

/-- The state of the block. The last two fields are the model's own, its host interface (log 1, log 2). -/
structure State where
  /-- `P_CAPACITY`, fixed at construction (R22). -/
  capacity : Capacity
  /-- `P_STRICT_UNLOCK`, fixed at construction (R8, D8). -/
  strictUnlock : Bool
  /-- The first RESET has happened (R254, D6; log 4). -/
  isReset : Bool
  /-- R25. -/
  phase : Phase
  /-- R26. -/
  eraseArmed : Bool
  /-- R27. -/
  writeArmed : Bool
  /-- R28. -/
  bankSelectArmed : Bool
  /-- R29. -/
  identificationMode : Bool
  /-- R24. -/
  currentBank : BitVec 1
  /-- R23, R50. -/
  banks : Memory
  /-- The transactions the environment has presented and the block has not yet run, oldest first (R13, R65). -/
  requests : List Request
  /-- The data result of the transaction just run, if it has one (R80). -/
  dataOut : Option Byte
deriving DecidableEq, Repr

/-- Why the machine stops with a fault. The spec gives the block no fault (R220): this one is the model's own. -/
inductive Fault where
  /-- A bus access while `currentBank` is no bank of the array (R31 rules it out). Raised by READ_ARRAY,
  EXT_PROGRAM and an armed CMD_ERASE_SECTOR, and only in states no run reaches. Safe (log 9). -/
  | noSuchBank
deriving DecidableEq, Repr

/-- Why there is no step. -/
inductive Refusal where
  /-- An instruction without a meaning. Nothing raises it: every row has its meaning. Safe. -/
  | notModelled (mnemonic : String)
  /-- Any transaction but RESET before the first RESET (R254). Raised by every meaning but RESET's. Safe. -/
  | beforeFirstReset
  /-- A key of kind 101, 110 or 111 (R88). Raised by step. Safe. -/
  | notATransaction
  /-- A raw index at or above `CAPACITY_BYTES` (R209). Raised by step, and by RAW_READ and RAW_WRITE. Safe. -/
  | rawIndexOutOfRange
  /-- A row's meaning asked for in a state that does not select that row (R82). Raised by the meanings, and
  never under step. Safe (log 8). -/
  | rowNotSelected
  /-- No transaction is pending (R13, R21). Raised by step. Safe (log 3). -/
  | noTransaction
deriving DecidableEq, Repr

/-- The outcome of a meaning and of a step. -/
abbrev Result := Host.Outcome State Fault Refusal

/-- What the spec leaves unspecified between construction and the first RESET (R254): every element but the
construction parameters (R252, R255). Each one is free: the start state is stated for every value of this. -/
structure Unspecified where
  phase              : Phase
  eraseArmed         : Bool
  writeArmed         : Bool
  bankSelectArmed    : Bool
  identificationMode : Bool
  currentBank        : BitVec 1
  banks              : Memory
deriving DecidableEq, Repr

/-- The "unreset" state the block starts in, constructed with the given parameters and never reset (R254, R255
step 1, D6; log 4). No transaction is presented yet. -/
def State.constructed (capacity : Capacity) (strictUnlock : Bool) (content : Unspecified) : State where
  capacity := capacity
  strictUnlock := strictUnlock
  isReset := false
  phase := content.phase
  eraseArmed := content.eraseArmed
  writeArmed := content.writeArmed
  bankSelectArmed := content.bankSelectArmed
  identificationMode := content.identificationMode
  currentBank := content.currentBank
  banks := content.banks
  requests := []
  dataOut := none

/-- The block right after RESET (R253), as constructed with the given parameters (R252) and nothing presented. -/
def State.resetOf (capacity : Capacity) (strictUnlock : Bool) : State where
  capacity := capacity
  strictUnlock := strictUnlock
  isReset := true
  phase := .idle
  eraseArmed := false
  writeArmed := false
  bankSelectArmed := false
  identificationMode := false
  currentBank := 0#1
  banks := []
  requests := []
  dataOut := none

/-- The start state with the construction parameters of log 5 and log 6: a RESET from here gives `State.reset`. -/
def State.start (content : Unspecified) : State := State.constructed constructedCapacity constructedStrictUnlock content

/-- The block right after RESET, with the construction parameters of log 5 and log 6. -/
def State.reset : State := State.resetOf constructedCapacity constructedStrictUnlock

end Sys2Proof.Machine
end

