-- ==== Sys2Proof/Machine/Flags.lean ====
section
/-! DEFINITION. The writes to `phase`, the armed flags, `identificationMode` and `currentBank`, one named
operation each (10_state.md R24 to R29). The block has no arithmetic flag (30_encoding.md R85). -/

namespace Sys2Proof.Machine

/-- `phase <- p` (R11, R25). -/
def State.setPhase (s : State) (p : Phase) : State := { s with phase := p }

/-- `eraseArmed <- b` (R26). -/
def State.setEraseArmed (s : State) (b : Bool) : State := { s with eraseArmed := b }

/-- `writeArmed <- b` (R27). -/
def State.setWriteArmed (s : State) (b : Bool) : State := { s with writeArmed := b }

/-- `bankSelectArmed <- b` (R28). -/
def State.setBankSelectArmed (s : State) (b : Bool) : State := { s with bankSelectArmed := b }

/-- `identificationMode <- b` (R29). -/
def State.setIdentificationMode (s : State) (b : Bool) : State := { s with identificationMode := b }

/-- `currentBank <- b` (R24). -/
def State.setCurrentBank (s : State) (b : BitVec 1) : State := { s with currentBank := b }

end Sys2Proof.Machine
end

