-- ==== Sys2Proof/Machine/Ops.lean ====
section
/-! DEFINITION. The shared operations: reading, writing and filling the array (00_scope.md R11), the port
(30_encoding.md R80), and the conditions under which a transaction runs. The block takes no exception and
returns from none (60_exceptions.md R220, R225, R226), so there is no operation for either. -/

namespace Sys2Proof.Machine

/-! ### The array -/

/-- `MemRead(i, 1)` (R11): an index not listed reads as `erased` (log 10). -/
def memRead : Memory → Nat → Byte
  | [], _ => erased
  | c :: rest, i => if c.1 = i then c.2 else memRead rest i

/-- A cell in front of memory, left out if it holds what an unlisted index reads as. -/
def memCons (i : Nat) (v : Byte) (m : Memory) : Memory :=
  if v = erased then m else (i, v) :: m

/-- `MemWrite(i, 1, v)` (R11), keeping the canonical form. -/
def memWrite : Memory → Nat → Byte → Memory
  | [], i, v => memCons i v []
  | c :: rest, i, v =>
    if i < c.1 then memCons i v (c :: rest)
    else if i = c.1 then memCons i v rest
    else c :: memWrite rest i v

/-- `Fill(start, n, v)` (R11), as the spec writes it: `MemWrite(start + k, 1, v)` for every `k < n`. -/
def memFill (m : Memory) (start : Nat) : Nat → Byte → Memory
  | 0, _ => m
  | n + 1, v => memWrite (memFill m start n v) (start + n) v

/-- `Fill(start, n, ERASED)` at once: the cells of the range are no longer listed. That it equals `memFill` is
stated in the obligations (log 10). -/
def memErase (m : Memory) (start n : Nat) : Memory :=
  m.filter (fun c => !(start ≤ c.1 && c.1 < start + n))

/-- The byte at an array index (R50). -/
def State.byteAt (s : State) (i : ArrayIndex) : Byte := memRead s.banks i.toNat

/-- One byte written to the array. -/
def State.writeByte (s : State) (i : ArrayIndex) (v : Byte) : State :=
  { s with banks := memWrite s.banks i.toNat v }

/-- `n` bytes of the array from `start` on erased (R64). -/
def State.eraseBytes (s : State) (start n : Nat) : State :=
  { s with banks := memErase s.banks start n }

/-- The array index a bus access at `addr` reaches, `{currentBank, address[15:0]}` (R52, R53, R57). -/
def State.busIndex (s : State) (addr : Addr) : ArrayIndex := arrayIndex s.currentBank (offsetOf addr)

/-- Every element at its reset value (R250, R253); the construction parameters stay (R252). -/
def State.applyReset (s : State) : State :=
  { s with isReset := true, phase := .idle, eraseArmed := false, writeArmed := false, bankSelectArmed := false,
           identificationMode := false, currentBank := 0#1, banks := [] }

/-! ### When a transaction runs -/

/-- Runs a row's effect where the block has been reset (R254) and the state selects the row (R82). -/
def whenSelected (s : State) (selected : Bool) (effect : Result) : Result :=
  if s.isReset then if selected then effect else .refused .rowNotSelected
  else .refused .beforeFirstReset

/-- Runs an access through the bus where `currentBank` is a bank of the array (R31, R57; log 9). -/
def inCurrentBank (s : State) (effect : Result) : Result :=
  if s.currentBank.toNat < s.capacity.numBanks then effect else .fault .noSuchBank

/-- Runs a raw access where the index is one of the image (R209). -/
def inImage (s : State) (index : ArrayIndex) (effect : Result) : Result :=
  if index.toNat < s.capacity.bytes then effect else .refused .rawIndexOutOfRange

/-! ### The port -/

/-- `R a` (R80, R90). -/
def Request.read (a : Addr) : Request := ⟨kindRead, a, 0#8⟩
/-- `W a, v` (R80, R90). -/
def Request.write (a : Addr) (v : Byte) : Request := ⟨kindWrite, a, v⟩
/-- `RESET` (R80, R90). -/
def Request.reset : Request := ⟨kindReset, 0#32, 0#8⟩
/-- `RAWR i` (R80, R90). -/
def Request.rawRead (i : ArrayIndex) : Request := ⟨kindRawRead, i.setWidth 32, 0#8⟩
/-- `RAWW i, v` (R80, R90). -/
def Request.rawWrite (i : ArrayIndex) (v : Byte) : Request := ⟨kindRawWrite, i.setWidth 32, v⟩

/-- The request is a transaction of the block: one of the five kinds, with a raw index in range (R80, R88, R209). -/
def Request.isTransaction (capacity : Capacity) (r : Request) : Bool :=
  r.kind == kindRead || r.kind == kindWrite || r.kind == kindReset ||
  ((r.kind == kindRawRead || r.kind == kindRawWrite) && r.address.toNat < capacity.bytes)

/-- The decode key of a request presented in a phase (R81). -/
def Request.key (r : Request) (phase : Phase) : Key := makeKey r.kind phase r.address r.value

/-- What the decode table's conditions read (R86). -/
def State.context (s : State) : DecodeContext where
  capacity := s.capacity
  identificationMode := s.identificationMode
  writeArmed := s.writeArmed
  bankSelectArmed := s.bankSelectArmed

/-- The data result of a READ or a raw read (R80). -/
def State.answer (s : State) (v : Byte) : State := { s with dataOut := some v }

/-- The transaction has left the stream, and no data has been returned for it yet (log 1, log 2). -/
def State.consume (s : State) (rest : List Request) : State := { s with requests := rest, dataOut := none }

/-- The oldest pending request, and the state once it has left the stream. -/
def State.nextRequest (s : State) : Option (Request × State) :=
  match s.requests with
  | [] => none
  | r :: rest => some (r, s.consume rest)

/-- The refusal for a key that is no transaction. -/
def DecodeError.refusal : DecodeError → Refusal
  | .notATransaction => .notATransaction
  | .rawIndexOutOfRange => .rawIndexOutOfRange

/-- The row that the state selects for a request (R82). -/
def State.select (s : State) (r : Request) : Except DecodeError Instr := decode s.context (r.key s.phase)

/-! ### Placing a table word -/

/-- The request a table word stands for; a word that is no key is a request of a kind the block refuses. -/
def tableRequest (nbits w : Nat) : Request :=
  match tableKey? nbits w with
  | some key => ⟨keyKind key, keyAddr key, keyValue key⟩
  | none => ⟨0b111#3, 0#32, 0#8⟩

/-- The decoder state a table word needs: for a WRITE its phase, and the armed flags of `tableContext` in it;
for a READ of an identifier byte, identification mode (log 7). -/
def State.prepareFor (s : State) (key : Key) : State :=
  if keyKind key = kindWrite then
    { s with phase := Phase.ofCode (keyPhase key)
             writeArmed := (tableContext key).writeArmed
             bankSelectArmed := if keyPhase key = Phase.extended.code then (tableContext key).bankSelectArmed
                                else s.bankSelectArmed }
  else if (tableContext key).identificationMode then { s with identificationMode := true }
  else s

/-- `s` with a table word presented as its next transaction, in a decoder state that selects it (log 7). -/
def State.placeWord (s : State) (nbits w : Nat) : State :=
  let t := match tableKey? nbits w with
    | some key => s.prepareFor key
    | none => s
  { t with requests := tableRequest nbits w :: s.requests }

end Sys2Proof.Machine
end

