-- ==== Sys2Proof/Machine/Command.lean ====
section
/-! DEFINITION. Commands, phase CommandReady (41_commands.md). -/

namespace Sys2Proof.Machine

/-- CMD_READ_CHIP_ID (R131). -/
def execCmdReadChipId (s : State) : Result :=
  whenSelected s (s.phase == .commandReady) <| .next ((s.setIdentificationMode true).setPhase .idle)

/-- CMD_FINISH_CHIP_ID (R132). -/
def execCmdFinishChipId (s : State) : Result :=
  whenSelected s (s.phase == .commandReady) <| .next ((s.setIdentificationMode false).setPhase .idle)

/-- CMD_ERASE (R133). -/
def execCmdErase (s : State) : Result :=
  whenSelected s (s.phase == .commandReady) <| .next ((s.setEraseArmed true).setPhase .idle)

/-- CMD_ERASE_CHIP (R134): every byte of every bank, if armed. -/
def execCmdEraseChip (s : State) : Result :=
  whenSelected s (s.phase == .commandReady) <|
    if s.eraseArmed then .next (((s.eraseBytes 0 s.capacity.bytes).setEraseArmed false).setPhase .idle)
    else .next (s.setPhase .idle)

/-- CMD_WRITE_BYTE (R135). -/
def execCmdWriteByte (s : State) : Result :=
  whenSelected s (s.phase == .commandReady) <| .next ((s.setWriteArmed true).setPhase .extended)

/-- CMD_SELECT_BANK (R136), on a Large device. -/
def execCmdSelectBank (s : State) : Result :=
  whenSelected s (s.phase == .commandReady && s.capacity == .large) <|
    .next ((s.setBankSelectArmed true).setPhase .extended)

/-- CMD_SELECT_BANK_IGNORED (R137), on a Small device (C2). -/
def execCmdSelectBankIgnored (s : State) : Result :=
  whenSelected s (s.phase == .commandReady && s.capacity == .small) <| .next (s.setPhase .idle)

/-- CMD_UNKNOWN (R138). -/
def execCmdUnknown (value : Byte) (s : State) : Result :=
  whenSelected s (s.phase == .commandReady && !isCommandCode value) <| .next (s.setPhase .idle)

/-- CMD_ERASE_SECTOR (R139): the sector of the current bank, if armed. -/
def execCmdEraseSector (sector : BitVec 4) (s : State) : Result :=
  whenSelected s (s.phase == .commandReady) <|
    if s.eraseArmed then
      inCurrentBank s <|
        .next (((s.eraseBytes (sectorIndex s.currentBank sector).toNat sectorSize).setEraseArmed false).setPhase .idle)
    else .next (s.setPhase .idle)

/-- CMD_DISCARD (R140). -/
def execCmdDiscard (addr : Addr) (value : Byte) (s : State) : Result :=
  whenSelected s (s.phase == .commandReady && addr != cmdAddr && !isSectorEraseWrite addr value) <|
    .next (s.setPhase .idle)

end Sys2Proof.Machine
end

