-- ==== Sys2Proof/Machine/Payload.lean ====
section
/-! DEFINITION. Payload writes, phase Extended (42_extended.md). -/

namespace Sys2Proof.Machine

/-- EXT_PROGRAM (R171): the byte is replaced (R63); `bankSelectArmed` stays as it is (R174). -/
def execExtProgram (addr : Addr) (value : Byte) (s : State) : Result :=
  whenSelected s (s.phase == .extended && s.writeArmed) <|
    inCurrentBank s <| .next (((s.writeByte (s.busIndex addr) value).setWriteArmed false).setPhase .idle)

/-- EXT_SELECT_BANK (R172), with the guard on the bank write of decision D10. -/
def execExtSelectBank (value : Byte) (s : State) : Result :=
  whenSelected s (s.phase == .extended && !s.writeArmed && s.bankSelectArmed) <|
    .next (((s.setCurrentBank (if s.capacity = .large then bankBit value else s.currentBank)).setBankSelectArmed
      false).setPhase .idle)

/-- EXT_DISCARD (R173): `bankSelectArmed` is not cleared (C1, log 12). -/
def execExtDiscard (addr : Addr) (_value : Byte) (s : State) : Result :=
  whenSelected s (s.phase == .extended && !s.writeArmed && !(s.bankSelectArmed && addr == bankSelectAddr)) <|
    .next (s.setPhase .idle)

end Sys2Proof.Machine
end

