-- ==== Sys2Proof/Machine/Raw.lean ====
section
/-! DEFINITION. The raw image accessor (44_host_access.md; log 15) and RESET (70_reset_and_hazards.md R250). -/

namespace Sys2Proof.Machine

/-- RAW_READ (R202). -/
def execRawRead (index : ArrayIndex) (s : State) : Result :=
  whenSelected s true <| inImage s index <| .next (s.answer (s.byteAt index))

/-- RAW_WRITE (R203). -/
def execRawWrite (index : ArrayIndex) (value : Byte) (s : State) : Result :=
  whenSelected s true <| inImage s index <| .next (s.writeByte index value)

/-- RESET (R250), legal in every phase and before the first RESET (R251, R254). -/
def execReset (s : State) : Result := .next s.applyReset

end Sys2Proof.Machine
end

