-- ==== Sys2Proof/Machine/Read.lean ====
section
/-! DEFINITION. Reads and the identification override (43_read.md). -/

namespace Sys2Proof.Machine

/-- READ_ID (R190). -/
def execReadId (addr : Addr) (s : State) : Result :=
  whenSelected s (s.identificationMode && isIdOffset addr) <|
    .next (s.answer (identifierByte s.capacity (idByte addr)))

/-- READ_ARRAY (R191), the Read that READ_ID does not take. -/
def execReadArray (addr : Addr) (s : State) : Result :=
  whenSelected s (!(s.identificationMode && isIdOffset addr)) <|
    inCurrentBank s <| .next (s.answer (s.byteAt (s.busIndex addr)))

end Sys2Proof.Machine
end

