-- ==== Sys2Proof/Machine/Unlock.lean ====
section
/-! DEFINITION. Unlock writes, phases Idle and Unlock1 (40_unlock.md). -/

namespace Sys2Proof.Machine

/-- UNLOCK_1 (R111). -/
def execUnlock1 (s : State) : Result :=
  whenSelected s (s.phase == .idle) <| .next (s.setPhase .unlock1)

/-- IDLE_IGNORE (R112). -/
def execIdleIgnore (addr : Addr) (value : Byte) (s : State) : Result :=
  whenSelected s (s.phase == .idle && !isUnlockWrite1 addr value) <| .next s

/-- UNLOCK_2 (R113). -/
def execUnlock2 (s : State) : Result :=
  whenSelected s (s.phase == .unlock1) <| .next (s.setPhase .commandReady)

/-- UNLOCK1_IGNORE (R114): the phase stays, or falls back to Idle under `P_STRICT_UNLOCK` (log 6). -/
def execUnlock1Ignore (addr : Addr) (value : Byte) (s : State) : Result :=
  whenSelected s (s.phase == .unlock1 && !isUnlockWrite2 addr value) <|
    .next (s.setPhase (if s.strictUnlock then .idle else s.phase))

end Sys2Proof.Machine
end

