-- ==== Sys2Proof/Machine/Dispatch.lean ====
section
/-! DEFINITION. One arm per row of the decode table. -/

namespace Sys2Proof.Machine

/-- The effect of an instruction (30_encoding.md R86, last column). -/
def exec (i : Instr) (s : State) : Host.Outcome State Fault Refusal :=
  match i with
  | .readId addr => Sys2Proof.Machine.execReadId addr s
  | .readArray addr => Sys2Proof.Machine.execReadArray addr s
  | .unlock1 => Sys2Proof.Machine.execUnlock1 s
  | .idleIgnore addr value => Sys2Proof.Machine.execIdleIgnore addr value s
  | .unlock2 => Sys2Proof.Machine.execUnlock2 s
  | .unlock1Ignore addr value => Sys2Proof.Machine.execUnlock1Ignore addr value s
  | .cmdReadChipId => Sys2Proof.Machine.execCmdReadChipId s
  | .cmdFinishChipId => Sys2Proof.Machine.execCmdFinishChipId s
  | .cmdErase => Sys2Proof.Machine.execCmdErase s
  | .cmdEraseChip => Sys2Proof.Machine.execCmdEraseChip s
  | .cmdWriteByte => Sys2Proof.Machine.execCmdWriteByte s
  | .cmdSelectBank => Sys2Proof.Machine.execCmdSelectBank s
  | .cmdSelectBankIgnored => Sys2Proof.Machine.execCmdSelectBankIgnored s
  | .cmdUnknown value => Sys2Proof.Machine.execCmdUnknown value s
  | .cmdEraseSector sector => Sys2Proof.Machine.execCmdEraseSector sector s
  | .cmdDiscard addr value => Sys2Proof.Machine.execCmdDiscard addr value s
  | .extProgram addr value => Sys2Proof.Machine.execExtProgram addr value s
  | .extSelectBank value => Sys2Proof.Machine.execExtSelectBank value s
  | .extDiscard addr value => Sys2Proof.Machine.execExtDiscard addr value s
  | .reset => Sys2Proof.Machine.execReset s
  | .rawRead index => Sys2Proof.Machine.execRawRead index s
  | .rawWrite index value => Sys2Proof.Machine.execRawWrite index value s

end Sys2Proof.Machine
end

