-- ==== Sys2Proof/Machine/Step.lean ====
section
/-! DEFINITION. One step per transaction (00_scope.md R13): the oldest pending request leaves the stream, the
state selects its row (30_encoding.md R82), and the row's meaning runs. -/

namespace Sys2Proof.Machine

/-- One transaction. Without one there is no step (R13, R21; log 3). -/
def step (s : State) : Host.Outcome State Fault Refusal :=
  match s.nextRequest with
  | none => .refused .noTransaction
  | some (r, s') =>
    match s'.select r with
    | .error e => .refused (DecodeError.refusal e)
    | .ok i => exec i s'

/-- `s` with a table word as the transaction the next step runs (log 7). -/
def State.withFetchWord (s : State) (nbits w : Nat) : State := s.placeWord nbits w

end Sys2Proof.Machine
end

