-- ==== Sys2Proof/Safety.lean ====
section
/-! DEFINITION. The terms the statements use: the state invariant (10_state.md R31 to R33), what a row asks of
the state (30_encoding.md R86), and the Write grammar of 30_encoding.md R83 and R87. -/

namespace Sys2Proof.Machine

/-- Every listed index is one of the array (R23, R50). -/
abbrev Memory.within (m : Memory) (bytes : Nat) : Prop := ∀ c ∈ m, c.1 < bytes

/-- What holds of the block once it has been reset: `currentBank` is a bank of the array (R31), `writeArmed` needs
Extended and Extended needs an armed flag (R32), `bankSelectArmed` needs a Large device (R33), and memory is
canonical and inside the array (log 10). -/
abbrev State.Legal (s : State) : Prop :=
  s.currentBank.toNat < s.capacity.numBanks ∧
  (s.writeArmed = true → s.phase = .extended) ∧
  (s.phase = .extended → s.writeArmed = true ∨ s.bankSelectArmed = true) ∧
  (s.bankSelectArmed = true → s.capacity = .large) ∧
  Memory.wf s.banks ∧ Memory.within s.banks s.capacity.bytes

/-- The invariant. Before the first RESET the state is unspecified (R254), so nothing is asked of it. -/
abbrev State.Inv (s : State) : Prop := s.isReset = true → s.Legal

/-- A state with a request as its oldest pending one. -/
def State.presents (s : State) (r : Request) : Prop := ∃ rest, s.requests = r :: rest

/-- The request is an armed chip erase: 0x10 at `CMD_ADDR` in CommandReady (R134). -/
def State.chipErases (s : State) (r : Request) : Prop :=
  s.phase = .commandReady ∧ s.eraseArmed = true ∧ r = .write cmdAddr codeEraseChip

/-- The request is an armed erase of `sector`: 0x30 at its address in CommandReady (R139). -/
def State.sectorErases (s : State) (r : Request) (sector : BitVec 4) : Prop :=
  s.phase = .commandReady ∧ s.eraseArmed = true ∧ r = .write (sectorAddr sector) sectorEraseData

/-- The request is the payload of a byte program (R171). -/
def State.programs (s : State) (r : Request) (addr : Addr) (value : Byte) : Prop :=
  s.phase = .extended ∧ s.writeArmed = true ∧ r = .write addr value

/-- The two states agree but for `bankSelectArmed`, and agree on it wherever a Write could read it: in Extended
with `writeArmed` false (R174, D9). -/
def State.agreeButStaleArm (s t : State) : Prop :=
  t = s.setBankSelectArmed t.bankSelectArmed ∧
  (s.phase = .extended → s.writeArmed = false → t.bankSelectArmed = s.bankSelectArmed)

/-- Two outcomes are both next states, and agree but for a stale `bankSelectArmed`; or they are the same stop. -/
def Result.agreeButStaleArm : Result → Result → Prop
  | .next s, .next t => s.agreeButStaleArm t
  | .fault f, .fault g => f = g
  | .refused f, .refused g => f = g
  | _, _ => False

/-- All but the construction parameters, the request stream and the result port. -/
def State.sameDecoder (s t : State) : Prop :=
  t.phase = s.phase ∧ t.eraseArmed = s.eraseArmed ∧ t.writeArmed = s.writeArmed ∧
  t.bankSelectArmed = s.bankSelectArmed ∧ t.identificationMode = s.identificationMode ∧
  t.currentBank = s.currentBank

/-- The two states' arrays hold the same bytes. -/
def State.sameBytes (s t : State) : Prop := ∀ i, t.byteAt i = s.byteAt i

end Sys2Proof.Machine

namespace Sys2Proof

open Sys2Proof.Machine

/-- What an instruction's row asks of the state's context, by the row's own rule and the rows before it (R86, R174). -/
def Instr.admitted (ctx : DecodeContext) : Instr → Bool
  | .readId _ => ctx.identificationMode
  | .readArray addr => !(ctx.identificationMode && isIdOffset addr)
  | .cmdSelectBank => ctx.capacity == .large
  | .cmdSelectBankIgnored => ctx.capacity == .small
  | .extProgram _ _ => ctx.writeArmed
  | .extSelectBank _ => !ctx.writeArmed && ctx.bankSelectArmed
  | .extDiscard addr _ => !ctx.writeArmed && !(ctx.bankSelectArmed && addr == bankSelectAddr)
  | .rawRead index => index.toNat < ctx.capacity.bytes
  | .rawWrite index _ => index.toNat < ctx.capacity.bytes
  | .unlock1 | .idleIgnore _ _ | .unlock2 | .unlock1Ignore _ _ | .cmdReadChipId | .cmdFinishChipId
  | .cmdErase | .cmdEraseChip | .cmdWriteByte | .cmdUnknown _ | .cmdEraseSector _ | .cmdDiscard _ _
  | .reset => true

/-- The command map at `CMD_ADDR` in CommandReady (R87). -/
def commandAt (capacity : Capacity) (value : Byte) : Instr :=
  if value = 0x10#8 then .cmdEraseChip
  else if value = 0x80#8 then .cmdErase
  else if value = 0x90#8 then .cmdReadChipId
  else if value = 0xA0#8 then .cmdWriteByte
  else if value = 0xB0#8 then (match capacity with | .large => .cmdSelectBank | .small => .cmdSelectBankIgnored)
  else if value = 0xF0#8 then .cmdFinishChipId
  else .cmdUnknown value

/-- The Write dispatch "per current `phase`" (R83), with the operand lists of R111 to R114, R131 to R140 and
R171 to R173. -/
def writeDispatch (ctx : DecodeContext) (phase : Phase) (addr : Addr) (value : Byte) : Instr :=
  match phase with
  | .idle => if addr = 0x0E005555#32 ∧ value = 0xAA#8 then .unlock1 else .idleIgnore addr value
  | .unlock1 => if addr = 0x0E002AAA#32 ∧ value = 0x55#8 then .unlock2 else .unlock1Ignore addr value
  | .commandReady =>
    if addr = 0x0E005555#32 then commandAt ctx.capacity value
    else if addr &&& 0xFFFF0FFF#32 = 0x0E000000#32 ∧ value = 0x30#8 then .cmdEraseSector (sectorOf addr)
    else .cmdDiscard addr value
  | .extended =>
    if ctx.writeArmed then .extProgram addr value
    else if ctx.bankSelectArmed ∧ addr = 0x0E000000#32 then .extSelectBank value
    else .extDiscard addr value

end Sys2Proof
end

