-- ==== Sys2Proof/Certificates/Slice0/Obligations.lean ====
section
/-! DEFINITION. The statements for the provers. Each docstring names the rule of spec/ it formalises; addresses and
values are written out from 00_scope.md R9, not through the model's constants. -/

open Sys2Proof Sys2Proof.Machine

/-! ### Encoding and decoding -/

/-- Decode and encode agree (30_encoding.md R81, R86): in every context that a well-formed instruction's row asks
for, its key, presented in any phase, decodes to it with every operand. -/
def Obligations.DecodeEncodeRoundTrip : Prop :=
  ∀ (ctx : DecodeContext) (p : Phase) (i : Instr), i.wellFormed = true → i.admitted ctx = true →
    decode ctx (encode p i) = .ok i

/-- The other direction: what the decoder reads from a key is a well-formed instruction whose row the context
admits, so a catch-all row never takes a key of an earlier row (R82, R86). -/
def Obligations.DecodedInstructionIsOfItsOwnRow : Prop :=
  ∀ (ctx : DecodeContext) (key : Key) (i : Instr), decode ctx key = .ok i →
    i.wellFormed = true ∧ i.admitted ctx = true

/-- R82, whose second sentence the spec derives from its table: a key selects the first row whose mask test and
condition hold; every key of kind 000 to 100 selects exactly one row, but for a raw index outside the array, which
selects none. -/
def Obligations.KeySelectsExactlyOneFirstRow : Prop :=
  ∀ (ctx : DecodeContext) (key : Key), (keyKind key).toNat ≤ 4 →
    (((keyKind key).toNat ≤ 2 ∨ (keyAddr key).toNat < ctx.capacity.bytes) →
      ∃! n : Nat, ∃ row, decodeTable[n]? = some row ∧
        (key &&& row.mask = row.pattern ∧ row.condition.holds ctx key = true) ∧
        (∀ m < n, ∀ r, decodeTable[m]? = some r →
          ¬ (key &&& r.mask = r.pattern ∧ r.condition.holds ctx key = true)) ∧
        decode ctx key = .ok (row.build key)) ∧
    (3 ≤ (keyKind key).toNat → ctx.capacity.bytes ≤ (keyAddr key).toNat →
      ∀ row ∈ decodeTable, ¬ (key &&& row.mask = row.pattern ∧ row.condition.holds ctx key = true))

/-- R83 and R87: the mask and match table of decision D13 reads a Write as the dispatch "per current `phase`" and the
command map do. -/
def Obligations.TableDecodesWritesByPhaseDispatch : Prop :=
  ∀ (ctx : DecodeContext) (p : Phase) (addr : Addr) (value : Byte),
    decode ctx (makeKey kindWrite p addr value) = .ok (writeDispatch ctx p addr value)

/-- Words of 95_test_vectors.md P1 to P4 and of R86, one or more a family, decode to what they stand for. -/
def Obligations.SampleWordsDecode : Prop :=
  decode ⟨.large, true, false, false⟩ 0x000E00000100#45 = .ok (.readId 0x0E000001#32) ∧
  decode ⟨.large, true, false, false⟩ 0x000E00000200#45 = .ok (.readArray 0x0E000002#32) ∧
  decode ⟨.large, false, false, false⟩ 0x040E005555AA#45 = .ok .unlock1 ∧
  decode ⟨.large, false, false, false⟩ 0x060E00555590#45 = .ok .cmdReadChipId ∧
  decode ⟨.small, false, false, false⟩ 0x060E00300030#45 = .ok (.cmdEraseSector 3#4) ∧
  decode ⟨.large, false, true, false⟩ 0x070E0000105A#45 = .ok (.extProgram 0x0E000010#32 0x5A#8) ∧
  decode ⟨.large, false, false, true⟩ 0x070E00000001#45 = .ok (.extSelectBank 0x01#8) ∧
  decode ⟨.large, false, false, false⟩ 0x080000000000#45 = .ok .reset ∧
  decode ⟨.large, false, false, false⟩ 0x0C0001001000#45 = .ok (.rawRead 0x10010#17) ∧
  decode ⟨.small, false, false, false⟩ 0x100000010042#45 = .ok (.rawWrite 0x00100#17 0x42#8)

/-! ### The step -/

/-- A step takes the oldest pending request, clears the result port, and runs exec of the instruction its key
decodes to in the state's phase and context (R13, R82; the stream is decision D3, its list the model's, log 1 and
log 2). -/
def Obligations.StepRunsTheDecodedInstruction : Prop :=
  ∀ (s : State) (r : Request) (rest : List Request) (i : Instr), s.requests = r :: rest →
    decode ⟨s.capacity, s.identificationMode, s.writeArmed, s.bankSelectArmed⟩
      (makeKey r.kind s.phase r.address r.value) = .ok i →
    step s = exec i { s with requests := rest, dataOut := none }

/-- Placing a table word makes the next step run the instruction the word decodes to (the model's own convention,
log 7), on a device of the capacity the words are read for. -/
def Obligations.PlacedTableWordRuns : Prop :=
  ∀ (s : State) (nbits w : Nat) (i : Instr), s.capacity = constructedCapacity → decodeTableWord nbits w = some i →
    step (s.withFetchWord nbits w) = exec i { s.withFetchWord nbits w with requests := s.requests, dataOut := none }

/-- R220, R82: in a state that meets the invariant after RESET, every transaction of the block completes: its row is
selected, the row's meaning answers a next state, and that is the step. That the request leaves the stream is the
model's own (log 1), and so is the mark that the first RESET has happened (decision D6, log 4). -/
def Obligations.EveryTransactionCompletes : Prop :=
  ∀ (s : State) (r : Request) (rest : List Request), s.Inv → s.isReset = true → s.requests = r :: rest →
    r.isTransaction s.capacity = true →
    ∃ i t, s.select r = .ok i ∧ exec i (s.consume rest) = .next t ∧ step s = .next t ∧
      t.requests = rest ∧ t.isReset = true

/-- R209 (decision D7): a raw index at or above `CAPACITY_BYTES` selects no row, and there is no step. -/
def Obligations.RawIndexOutOfRangeIsRefused : Prop :=
  ∀ (s : State) (r : Request) (rest : List Request), s.requests = r :: rest →
    r.kind = 0b011#3 ∨ r.kind = 0b100#3 → s.capacity.bytes ≤ r.address.toNat →
    (∀ row ∈ decodeTable, row.selects s.context (r.key s.phase) = false) ∧
    step s = .refused .rawIndexOutOfRange

/-- R88 (decision D13): the kinds 101, 110 and 111 are no transactions, and there is no step. -/
def Obligations.UnusedKindsAreRefused : Prop :=
  ∀ (s : State) (r : Request) (rest : List Request), s.requests = r :: rest →
    r.kind = 0b101#3 ∨ r.kind = 0b110#3 ∨ r.kind = 0b111#3 → step s = .refused .notATransaction

/-- R254 (decision D6, log 4): before the first RESET a RESET runs, and every other transaction is refused. -/
def Obligations.OnlyResetRunsBeforeTheFirstReset : Prop :=
  ∀ (s : State) (r : Request) (rest : List Request), s.isReset = false → s.requests = r :: rest →
    (r.kind = 0b010#3 → ∃ t, step s = .next t ∧ t.isReset = true) ∧
    (r.kind ≠ 0b010#3 → r.isTransaction s.capacity = true → step s = .refused .beforeFirstReset) ∧
    (r.kind ≠ 0b010#3 → ∃ why, step s = .refused why)

/-- R254, R255 (decision D6, log 4): the block starts unreset. Whatever construction leaves in it, it has not been
reset, has the parameters it was constructed with, refuses every transaction but RESET, and a RESET takes it to the
reset state of those parameters; `State.reset` is what the first RESET makes of `State.start`. -/
def Obligations.ConstructedBlockStartsUnreset : Prop :=
  ∀ (c : Capacity) (strict : Bool) (content : Unspecified) (r : Request) (rest : List Request),
    (State.constructed c strict content).isReset = false ∧
    (State.constructed c strict content).capacity = c ∧
    (State.constructed c strict content).strictUnlock = strict ∧
    step { State.constructed c strict content with requests := .reset :: rest } =
      .next { State.resetOf c strict with requests := rest } ∧
    step { State.start content with requests := [.reset] } = .next State.reset ∧
    (r.kind ≠ 0b010#3 → r.isTransaction c = true →
      step { State.constructed c strict content with requests := r :: rest } = .refused .beforeFirstReset)

/-- R254, R255 with R31 to R33, which the spec derives (decision D6, log 4): from the start state the block runs only
streams that begin with a RESET, and every state it reaches by one step or more has been reset and is legal, on the
device as constructed, whatever construction left in it. -/
def Obligations.StartedBlockRunsOnlyAfterReset : Prop :=
  ∀ (c : Capacity) (strict : Bool) (content : Unspecified) (stream : List Request) (k : Nat) (t : State),
    Sys2Proof.core.run (k + 1) { State.constructed c strict content with requests := stream } = .next t →
    (∃ r rest, stream = r :: rest ∧ r.kind = 0b010#3) ∧
    t.isReset = true ∧ t.Legal ∧ t.capacity = c ∧ t.strictUnlock = strict

/-- Without a pending transaction there is no step (the model's own convention, log 3). -/
def Obligations.NoPendingTransactionNoStep : Prop :=
  ∀ s : State, s.requests = [] → step s = .refused .noTransaction

/-! ### Invariants -/

/-- The reset state of every configuration meets the invariant (R253, and R31 to R33, which the spec derives). -/
def Obligations.ResetMeetsTheInvariant : Prop :=
  State.reset.Inv ∧ ∀ (c : Capacity) (strict : Bool), (State.resetOf c strict).Legal

/-- Every step keeps the invariant: the bank is one of the array, the armed flags agree with the phase and the
capacity (R31, R32, R33, which the spec derives), and memory keeps its canonical form inside the array (the model's
own representation of R23, log 10). -/
def Obligations.StepKeepsTheInvariant : Prop :=
  ∀ s t : State, s.Inv → step s = .next t → t.Inv

/-- R31, R32, R33, which the spec derives from its other rules: after RESET, whatever stream of transactions is
presented, every state the block reaches has `currentBank < NUM_BANKS`, the armed flags as the rules say, and the
capacity it was constructed with. -/
def Obligations.ReachableStatesAreLegal : Prop :=
  ∀ (c : Capacity) (strict : Bool) (stream : List Request) (k : Nat) (t : State),
    Sys2Proof.core.run k { State.resetOf c strict with requests := stream } = .next t →
    t.currentBank.toNat < c.numBanks ∧
    (t.writeArmed = true → t.phase = .extended) ∧
    (t.phase = .extended → t.writeArmed = true ∨ t.bankSelectArmed = true) ∧
    (t.bankSelectArmed = true → c = .large) ∧ t.capacity = c

/-- R220: the block raises no exception: from a state that meets the invariant (R31; the fault it rules out is the
model's own, log 9) no step faults. -/
def Obligations.NoStepFaults : Prop :=
  ∀ (s : State) (f : Fault), s.Inv → step s ≠ .fault f

/-- R22, R252: no transaction, RESET among them, writes the capacity; nor `P_STRICT_UNLOCK`, the parameter of the
spec's own decision D8 (log 6). -/
def Obligations.ConstructionParametersNeverChange : Prop :=
  ∀ s t : State, step s = .next t → t.capacity = s.capacity ∧ t.strictUnlock = s.strictUnlock

/-! ### Whole-machine rules: what may change what -/

/-- R35: `phase` advances only through the grammar. Unlock1, CommandReady and Extended are entered from another phase
only by the Write that the grammar names; Idle only by RESET (R250), a payload write (R170), a Write in CommandReady
that does not lead to Extended (R130), or, under the strict mode of decision D8 (log 6), a Write in Unlock1 that is not
the second unlock write. -/
def Obligations.PhaseAdvancesOnlyByTheGrammar : Prop :=
  ∀ s t : State, step s = .next t → t.phase ≠ s.phase →
    (t.phase = .unlock1 → s.phase = .idle ∧ s.presents (.write 0x0E005555#32 0xAA#8)) ∧
    (t.phase = .commandReady → s.phase = .unlock1 ∧ s.presents (.write 0x0E002AAA#32 0x55#8)) ∧
    (t.phase = .extended → s.phase = .commandReady ∧
      (s.presents (.write 0x0E005555#32 0xA0#8) ∨
        (s.presents (.write 0x0E005555#32 0xB0#8) ∧ s.capacity = .large))) ∧
    (t.phase = .idle → (∃ r, s.presents r ∧ r.kind = 0b010#3) ∨
      ∃ addr value, s.presents (.write addr value) ∧
        (s.phase = .extended ∨
          (s.phase = .commandReady ∧
            ¬ (addr = 0x0E005555#32 ∧ (value = 0xA0#8 ∨ (value = 0xB0#8 ∧ s.capacity = .large)))) ∨
          (s.phase = .unlock1 ∧ s.strictUnlock = true ∧ ¬ (addr = 0x0E002AAA#32 ∧ value = 0x55#8))))

/-- R26, R27, R28: each armed flag is set only by its command, and cleared only by the action that consumes it or
by RESET. -/
def Obligations.ArmedFlagsChangeOnlyByTheirRules : Prop :=
  ∀ s t : State, step s = .next t → ∃ r, s.presents r ∧
    (s.eraseArmed = false → t.eraseArmed = true → s.phase = .commandReady ∧ r = .write 0x0E005555#32 0x80#8) ∧
    (s.eraseArmed = true → t.eraseArmed = false →
      r.kind = kindReset ∨ s.chipErases r ∨ ∃ n, s.sectorErases r n) ∧
    (s.writeArmed = false → t.writeArmed = true → s.phase = .commandReady ∧ r = .write 0x0E005555#32 0xA0#8) ∧
    (s.writeArmed = true → t.writeArmed = false → r.kind = kindReset ∨ ∃ a v, s.programs r a v) ∧
    (s.bankSelectArmed = false → t.bankSelectArmed = true →
      s.phase = .commandReady ∧ r = .write 0x0E005555#32 0xB0#8 ∧ s.capacity = .large) ∧
    (s.bankSelectArmed = true → t.bankSelectArmed = false →
      r.kind = kindReset ∨ (s.phase = .extended ∧ s.writeArmed = false ∧ ∃ v, r = .write 0x0E000000#32 v))

/-- R24, R29: `currentBank` changes only by a bank-select payload or RESET, `identificationMode` only by its two
commands or RESET. -/
def Obligations.BankAndModeChangeOnlyByTheirRules : Prop :=
  ∀ s t : State, step s = .next t → ∃ r, s.presents r ∧
    (t.currentBank ≠ s.currentBank → r.kind = kindReset ∨
      (s.phase = .extended ∧ s.writeArmed = false ∧ s.bankSelectArmed = true ∧ s.capacity = .large ∧
        ∃ v, r = .write 0x0E000000#32 v ∧ t.currentBank = v.extractLsb' 0 1)) ∧
    (s.identificationMode = false → t.identificationMode = true →
      s.phase = .commandReady ∧ r = .write 0x0E005555#32 0x90#8) ∧
    (s.identificationMode = true → t.identificationMode = false →
      r.kind = kindReset ∨ (s.phase = .commandReady ∧ r = .write 0x0E005555#32 0xF0#8))

/-- R30, R57, R225: a byte of the array changes only by an armed chip erase, an armed erase of the sector it lies in
in the current bank, the program of that byte, a raw write of that byte, or RESET. -/
def Obligations.BytesChangeOnlyByTheirRules : Prop :=
  ∀ (s t : State) (j : ArrayIndex), s.Inv → step s = .next t → t.byteAt j ≠ s.byteAt j →
    ∃ r, s.presents r ∧
      (r.kind = kindReset ∨ s.chipErases r ∨
        (∃ (n : BitVec 4) (k : BitVec 12), s.sectorErases r n ∧ j = s.currentBank ++ n ++ k) ∨
        (∃ a v, s.programs r a v ∧ j = s.currentBank ++ a.extractLsb' 0 16 ∧ t.byteAt j = v) ∨
        (r.kind = kindRawWrite ∧ r.address.toNat = j.toNat ∧ t.byteAt j = r.value))

/-- R58: on a Small device the effective bank stays 0. -/
def Obligations.SmallDeviceStaysInBankZero : Prop :=
  ∀ (strict : Bool) (stream : List Request) (k : Nat) (t : State),
    Sys2Proof.core.run k { State.resetOf .small strict with requests := stream } = .next t → t.currentBank = 0#1

/-! ### Reads -/

/-- Completion of READ_ID and READ_ARRAY: the data result, and nothing else changes (R190, R191). -/
def Obligations.ReadMeaningsComplete : Prop :=
  ∀ (s : State) (addr : Addr), s.isReset = true →
    (s.identificationMode = true → (addr.extractLsb' 0 16 = 0#16 ∨ addr.extractLsb' 0 16 = 1#16) →
      exec (.readId addr) s = .next { s with dataOut := some (
        if s.capacity = .large then (if addr.extractLsb' 0 16 = 0#16 then 0xC2#8 else 0x09#8)
        else (if addr.extractLsb' 0 16 = 0#16 then 0xBF#8 else 0xD4#8)) }) ∧
    (¬ (s.identificationMode = true ∧ (addr.extractLsb' 0 16 = 0#16 ∨ addr.extractLsb' 0 16 = 1#16)) →
      s.currentBank.toNat < s.capacity.numBanks →
      exec (.readArray addr) s =
        .next { s with dataOut := some (s.byteAt (s.currentBank ++ addr.extractLsb' 0 16)) })

/-- R190, R191: a Read returns the identifier byte in identification mode at offsets 0 and 1, and the array byte of
the current bank otherwise; the state is otherwise as before, in every phase. -/
def Obligations.ReadReturnsIdentifierOrArrayByte : Prop :=
  ∀ (s : State) (addr : Addr) (rest : List Request), s.isReset = true →
    s.currentBank.toNat < s.capacity.numBanks → s.requests = .read addr :: rest →
    step s = .next { s with
      requests := rest
      dataOut := some (
        if s.identificationMode = true ∧ addr.extractLsb' 1 15 = 0#15 then
          (match s.capacity with
            | .large => if addr.extractLsb' 0 16 = 0#16 then 0xC2#8 else 0x09#8
            | .small => if addr.extractLsb' 0 16 = 0#16 then 0xBF#8 else 0xD4#8)
        else s.byteAt (s.currentBank ++ addr.extractLsb' 0 16)) }

/-- R192, R62, derived by the spec from R190 and R191: a Read is legal in every phase, never changes `phase`, a flag, `currentBank` or memory, and never
fails; and a second Read of the same address returns the same byte. -/
def Obligations.ReadsHaveNoSideEffect : Prop :=
  ∀ (s : State) (addr : Addr) (rest : List Request), s.isReset = true → s.Inv →
    s.requests = .read addr :: .read addr :: rest →
    ∃ t u d, step s = .next t ∧ step t = .next u ∧ t.dataOut = some d ∧ u.dataOut = some d ∧
      t = { s with requests := .read addr :: rest, dataOut := some d } ∧
      u = { s with requests := rest, dataOut := some d }

/-- R52: a Read uses only the low 16 bits of its address: aliases return the same byte. -/
def Obligations.ReadIgnoresTheHighAddressBits : Prop :=
  ∀ (s : State) (a b : Addr) (rest : List Request), a.extractLsb' 0 16 = b.extractLsb' 0 16 →
    step { s with requests := .read a :: rest } = step { s with requests := .read b :: rest }

/-! ### Unlock writes -/

/-- Completion of UNLOCK_1, IDLE_IGNORE, UNLOCK_2 and UNLOCK1_IGNORE, with the whole next state (R111 to R114; the
strict mode is decision D8, log 6). -/
def Obligations.UnlockMeaningsComplete : Prop :=
  ∀ (s : State) (addr : Addr) (value : Byte), s.isReset = true →
    (s.phase = .idle → exec .unlock1 s = .next { s with phase := .unlock1 }) ∧
    (s.phase = .idle → ¬ (addr = 0x0E005555#32 ∧ value = 0xAA#8) → exec (.idleIgnore addr value) s = .next s) ∧
    (s.phase = .unlock1 → exec .unlock2 s = .next { s with phase := .commandReady }) ∧
    (s.phase = .unlock1 → ¬ (addr = 0x0E002AAA#32 ∧ value = 0x55#8) →
      exec (.unlock1Ignore addr value) s = .next (if s.strictUnlock then { s with phase := .idle } else s))

/-- R111, R112: a Write in Idle goes to Unlock1 if it is 0xAA at 0x0E005555, on all 32 address bits, and is
otherwise discarded with no state change. -/
def Obligations.WriteInIdle : Prop :=
  ∀ (s : State) (addr : Addr) (value : Byte) (rest : List Request), s.isReset = true → s.phase = .idle →
    s.requests = .write addr value :: rest →
    step s = .next (if addr = 0x0E005555#32 ∧ value = 0xAA#8
      then { s with requests := rest, dataOut := none, phase := .unlock1 }
      else { s with requests := rest, dataOut := none })

/-- R113, R114: a Write in Unlock1 goes to CommandReady if it is 0x55 at 0x0E002AAA; any other stays in Unlock1, or
falls back to Idle under `P_STRICT_UNLOCK`, the spec's own decision D8 (log 6). -/
def Obligations.WriteInUnlock1 : Prop :=
  ∀ (s : State) (addr : Addr) (value : Byte) (rest : List Request), s.isReset = true → s.phase = .unlock1 →
    s.requests = .write addr value :: rest →
    step s = .next (if addr = 0x0E002AAA#32 ∧ value = 0x55#8
      then { s with requests := rest, dataOut := none, phase := .commandReady }
      else if s.strictUnlock then { s with requests := rest, dataOut := none, phase := .idle }
      else { s with requests := rest, dataOut := none })

/-- R115, which the spec derives: the unlock sequence reaches CommandReady from Idle in either mode and from Unlock1 with strict mode off,
and ends in Idle from Unlock1 with strict mode on; nothing but the phase changes. The strict mode is the spec's own
decision D8 (log 6). -/
def Obligations.UnlockSequenceReachesCommandReady : Prop :=
  ∀ (s : State) (rest : List Request), s.isReset = true →
    s.requests = .write 0x0E005555#32 0xAA#8 :: .write 0x0E002AAA#32 0x55#8 :: rest →
    ((s.phase = .idle ∨ (s.phase = .unlock1 ∧ s.strictUnlock = false)) →
      Sys2Proof.core.run 2 s = .next { s with requests := rest, dataOut := none, phase := .commandReady }) ∧
    (s.phase = .unlock1 → s.strictUnlock = true →
      Sys2Proof.core.run 2 s = .next { s with requests := rest, dataOut := none, phase := .idle })

/-- R258: Unlock1 is sticky with strict mode off: after any number of Writes that are not the second unlock write,
that write still reaches CommandReady, and nothing else has changed. -/
def Obligations.Unlock1IsSticky : Prop :=
  ∀ (s : State) (wrong : List (Addr × Byte)) (rest : List Request), s.isReset = true → s.phase = .unlock1 →
    s.strictUnlock = false → (∀ w ∈ wrong, w ≠ (0x0E002AAA#32, 0x55#8)) →
    s.requests = wrong.map (fun w => .write w.1 w.2) ++ .write 0x0E002AAA#32 0x55#8 :: rest →
    Sys2Proof.core.run (wrong.length + 1) s =
      .next { s with requests := rest, dataOut := none, phase := .commandReady }

/-! ### Commands -/

/-- Completion of the commands that do not erase, with the whole next state (R131, R132, R133, R135 to R138, R140). -/
def Obligations.FlagCommandMeaningsComplete : Prop :=
  ∀ (s : State) (addr : Addr) (value : Byte), s.isReset = true → s.phase = .commandReady →
    exec .cmdReadChipId s = .next { s with identificationMode := true, phase := .idle } ∧
    exec .cmdFinishChipId s = .next { s with identificationMode := false, phase := .idle } ∧
    exec .cmdErase s = .next { s with eraseArmed := true, phase := .idle } ∧
    exec .cmdWriteByte s = .next { s with writeArmed := true, phase := .extended } ∧
    (s.capacity = .large → exec .cmdSelectBank s = .next { s with bankSelectArmed := true, phase := .extended }) ∧
    (s.capacity = .small → exec .cmdSelectBankIgnored s = .next { s with phase := .idle }) ∧
    (value ∉ [0x10#8, 0x80#8, 0x90#8, 0xA0#8, 0xB0#8, 0xF0#8] →
      exec (.cmdUnknown value) s = .next { s with phase := .idle }) ∧
    (addr ≠ 0x0E005555#32 → ¬ (addr &&& 0xFFFF0FFF#32 = 0x0E000000#32 ∧ value = 0x30#8) →
      exec (.cmdDiscard addr value) s = .next { s with phase := .idle })

/-- Completion and frame of CMD_ERASE_CHIP and CMD_ERASE_SECTOR (R134, R139): armed, they erase the whole array or the
4096 bytes from the sector's first index in the current bank, and clear the arm; unarmed, only the phase changes. -/
def Obligations.EraseMeaningsComplete : Prop :=
  ∀ (s : State) (sector : BitVec 4), s.isReset = true → s.phase = .commandReady →
    (s.eraseArmed = false →
      exec .cmdEraseChip s = .next { s with phase := .idle } ∧
      exec (.cmdEraseSector sector) s = .next { s with phase := .idle }) ∧
    (s.eraseArmed = true →
      ∃ t, exec .cmdEraseChip s = .next t ∧
        (∀ j : ArrayIndex, j.toNat < s.capacity.bytes → t.byteAt j = 0xFF#8) ∧
        (∀ j : ArrayIndex, s.capacity.bytes ≤ j.toNat → t.byteAt j = s.byteAt j) ∧
        t = { s with eraseArmed := false, phase := .idle, banks := t.banks }) ∧
    (s.eraseArmed = true → s.currentBank.toNat < s.capacity.numBanks →
      ∃ t, exec (.cmdEraseSector sector) s = .next t ∧
        (∀ j : ArrayIndex, (sectorIndex s.currentBank sector).toNat ≤ j.toNat →
          j.toNat < (sectorIndex s.currentBank sector).toNat + 4096 → t.byteAt j = 0xFF#8) ∧
        (∀ j : ArrayIndex, ¬ ((sectorIndex s.currentBank sector).toNat ≤ j.toNat ∧
          j.toNat < (sectorIndex s.currentBank sector).toNat + 4096) → t.byteAt j = s.byteAt j) ∧
        t = { s with eraseArmed := false, phase := .idle, banks := t.banks })

/-- R131, R132, R133, R135, R136, R137, R138: the Write of a command byte other than 0x10 at 0x0E005555 in
CommandReady, with the whole next state. -/
def Obligations.CommandWriteAtCmdAddr : Prop :=
  ∀ (s : State) (value : Byte) (rest : List Request), s.isReset = true → s.phase = .commandReady →
    s.requests = .write 0x0E005555#32 value :: rest → value ≠ 0x10#8 →
    step s = .next (
      if value = 0x90#8 then { s with requests := rest, dataOut := none, identificationMode := true, phase := .idle }
      else if value = 0xF0#8 then
        { s with requests := rest, dataOut := none, identificationMode := false, phase := .idle }
      else if value = 0x80#8 then { s with requests := rest, dataOut := none, eraseArmed := true, phase := .idle }
      else if value = 0xA0#8 then { s with requests := rest, dataOut := none, writeArmed := true, phase := .extended }
      else if value = 0xB0#8 ∧ s.capacity = .large then
        { s with requests := rest, dataOut := none, bankSelectArmed := true, phase := .extended }
      else { s with requests := rest, dataOut := none, phase := .idle })

/-- R134: 0x10 at 0x0E005555 in CommandReady erases every byte of every bank if `eraseArmed`, and leaves memory
unchanged if not; the arm ends false and the phase Idle, and nothing else changes. -/
def Obligations.ChipEraseWrite : Prop :=
  ∀ (s : State) (rest : List Request), s.isReset = true → s.phase = .commandReady →
    s.requests = .write 0x0E005555#32 0x10#8 :: rest →
    ∃ t, step s = .next t ∧
      (s.eraseArmed = true → ∀ j : ArrayIndex, j.toNat < s.capacity.bytes → t.byteAt j = 0xFF#8) ∧
      (s.eraseArmed = false → ∀ j : ArrayIndex, t.byteAt j = s.byteAt j) ∧
      t = { s with requests := rest, dataOut := none, eraseArmed := false, phase := .idle, banks := t.banks }

/-- R139, R54: 0x30 at a sector address in CommandReady, armed, erases exactly the bytes `{currentBank, sector, k}`;
unarmed, memory is unchanged; the arm ends false and the phase Idle, and nothing else changes. -/
def Obligations.SectorEraseWrite : Prop :=
  ∀ (s : State) (addr : Addr) (rest : List Request), s.isReset = true → s.phase = .commandReady →
    s.currentBank.toNat < s.capacity.numBanks → addr &&& 0xFFFF0FFF#32 = 0x0E000000#32 →
    s.requests = .write addr 0x30#8 :: rest →
    ∃ t, step s = .next t ∧
      (s.eraseArmed = true →
        (∀ k : BitVec 12, t.byteAt (s.currentBank ++ addr.extractLsb' 12 4 ++ k) = 0xFF#8) ∧
        (∀ j : ArrayIndex, (∀ k : BitVec 12, j ≠ s.currentBank ++ addr.extractLsb' 12 4 ++ k) →
          t.byteAt j = s.byteAt j)) ∧
      (s.eraseArmed = false → ∀ j : ArrayIndex, t.byteAt j = s.byteAt j) ∧
      t = { s with requests := rest, dataOut := none, eraseArmed := false, phase := .idle, banks := t.banks }

/-- R140: a Write in CommandReady that is neither at 0x0E005555 nor a sector erase only returns to Idle. -/
def Obligations.OtherWriteInCommandReadyIsDiscarded : Prop :=
  ∀ (s : State) (addr : Addr) (value : Byte) (rest : List Request), s.isReset = true → s.phase = .commandReady →
    s.requests = .write addr value :: rest → addr ≠ 0x0E005555#32 →
    ¬ (addr &&& 0xFFFF0FFF#32 = 0x0E000000#32 ∧ value = 0x30#8) →
    step s = .next { s with requests := rest, dataOut := none, phase := .idle }

/-- R130: a Write in CommandReady always leaves it: to Extended after WriteByte, or SelectBank on a Large device, and
to Idle in every other case. -/
def Obligations.CommandReadyConsumesExactlyOneWrite : Prop :=
  ∀ (s t : State) (addr : Addr) (value : Byte), s.phase = .commandReady → s.presents (.write addr value) →
    step s = .next t →
    t.phase = if addr = 0x0E005555#32 ∧ (value = 0xA0#8 ∨ (value = 0xB0#8 ∧ s.capacity = .large))
      then .extended else .idle

/-! ### Payload writes -/

/-- Completion and frame of EXT_PROGRAM, EXT_SELECT_BANK and EXT_DISCARD (R171, R172, R173). That the bank stays as
it is on a device that is not Large is the guard of the spec's own decision D10 (log 19). -/
def Obligations.PayloadMeaningsComplete : Prop :=
  ∀ (s : State) (addr : Addr) (value : Byte), s.isReset = true → s.phase = .extended →
    (s.writeArmed = true → s.Inv →
      ∃ t, exec (.extProgram addr value) s = .next t ∧ t.byteAt (s.busIndex addr) = value ∧
        (∀ j, j ≠ s.busIndex addr → t.byteAt j = s.byteAt j) ∧
        t = { s with writeArmed := false, phase := .idle, banks := t.banks }) ∧
    (s.writeArmed = false → s.bankSelectArmed = true →
      exec (.extSelectBank value) s = .next { s with
        currentBank := if s.capacity = .large then value.extractLsb' 0 1 else s.currentBank
        bankSelectArmed := false
        phase := .idle }) ∧
    (s.writeArmed = false → ¬ (s.bankSelectArmed = true ∧ addr = 0x0E000000#32) →
      exec (.extDiscard addr value) s = .next { s with phase := .idle })

/-- R171, R174: in Extended with `writeArmed`, and whatever `bankSelectArmed` is, a Write replaces the byte at its
offset in the current bank, clears `writeArmed` and returns to Idle; every other byte and element is as before. -/
def Obligations.ProgramPayloadWrite : Prop :=
  ∀ (s : State) (addr : Addr) (value : Byte) (rest : List Request), s.isReset = true → s.Inv →
    s.phase = .extended → s.writeArmed = true → s.requests = .write addr value :: rest →
    ∃ t, step s = .next t ∧ t.byteAt (s.currentBank ++ addr.extractLsb' 0 16) = value ∧
      (∀ j, j ≠ s.currentBank ++ addr.extractLsb' 0 16 → t.byteAt j = s.byteAt j) ∧
      t = { s with requests := rest, dataOut := none, writeArmed := false, phase := .idle, banks := t.banks }

/-- R172: in Extended with only `bankSelectArmed`, a Write at 0x0E000000 selects the bank of its value's bit 0 on a
Large device, clears the arm and returns to Idle. On a device that is not Large the bank stays, the guard of the
spec's own decision D10 (log 19). -/
def Obligations.BankSelectPayloadWrite : Prop :=
  ∀ (s : State) (value : Byte) (rest : List Request), s.isReset = true → s.phase = .extended →
    s.writeArmed = false → s.bankSelectArmed = true → s.requests = .write 0x0E000000#32 value :: rest →
    step s = .next { s with
      requests := rest
      dataOut := none
      currentBank := if s.capacity = .large then value.extractLsb' 0 1 else s.currentBank
      bankSelectArmed := false
      phase := .idle }

/-- R173: in Extended without `writeArmed`, any other Write only returns to Idle; `bankSelectArmed` is not cleared. -/
def Obligations.OtherPayloadWriteIsDiscarded : Prop :=
  ∀ (s : State) (addr : Addr) (value : Byte) (rest : List Request), s.isReset = true → s.phase = .extended →
    s.writeArmed = false → ¬ (s.bankSelectArmed = true ∧ addr = 0x0E000000#32) →
    s.requests = .write addr value :: rest →
    step s = .next { s with requests := rest, dataOut := none, phase := .idle }

/-- R65, R63, R53: after a program, a Read at any address of the same offset returns the programmed byte, unless
identification mode hides it; a raw read of the byte returns it in either case. -/
def Obligations.ReadAfterProgramReturnsTheByte : Prop :=
  ∀ (s : State) (addr other : Addr) (value : Byte) (rest : List Request), s.isReset = true → s.Inv →
    s.phase = .extended → s.writeArmed = true → other.extractLsb' 0 16 = addr.extractLsb' 0 16 →
    ((s.identificationMode = false ∨ other.extractLsb' 1 15 ≠ 0#15) →
      s.requests = .write addr value :: .read other :: rest →
      ∃ t, Sys2Proof.core.run 2 s = .next t ∧ t.dataOut = some value) ∧
    (s.requests = .write addr value :: .rawRead (s.currentBank ++ addr.extractLsb' 0 16) :: rest →
      ∃ t, Sys2Proof.core.run 2 s = .next t ∧ t.dataOut = some value)

/-! ### RESET and the raw accessor -/

/-- Completion of RESET: every element at its reset value, from every state (R250, R253). -/
def Obligations.ResetMeaningCompletes : Prop :=
  ∀ s : State, exec .reset s = .next { s with
    isReset := true, phase := .idle, eraseArmed := false, writeArmed := false, bankSelectArmed := false,
    identificationMode := false, currentBank := 0#1, banks := [] } ∧
    ∀ t, exec .reset s = .next t → ∀ j, t.byteAt j = 0xFF#8

/-- R250, R251, R252: a RESET always succeeds, in every phase and before the first RESET, and its result is the reset
state of the device as constructed, whatever the state before it. -/
def Obligations.ResetAlwaysReachesTheResetState : Prop :=
  ∀ (s : State) (rest : List Request), s.requests = .reset :: rest →
    step s = .next { State.resetOf s.capacity s.strictUnlock with requests := rest } ∧
    ∀ j, ({ State.resetOf s.capacity s.strictUnlock with requests := rest } : State).byteAt j = 0xFF#8

/-- Completion and frame of RAW_READ and RAW_WRITE on an index of the image (R202, R203), and their stop outside
it (R209); the byte form and the refusal are decision D7 (log 15). -/
def Obligations.RawMeaningsComplete : Prop :=
  ∀ (s : State) (index : ArrayIndex) (value : Byte), s.isReset = true →
    (index.toNat < s.capacity.bytes →
      exec (.rawRead index) s = .next { s with dataOut := some (s.byteAt index) } ∧
      (Memory.wf s.banks → ∃ t, exec (.rawWrite index value) s = .next t ∧ t.byteAt index = value ∧
        (∀ j, j ≠ index → t.byteAt j = s.byteAt j) ∧ t = { s with banks := t.banks })) ∧
    (s.capacity.bytes ≤ index.toNat →
      exec (.rawRead index) s = .refused .rawIndexOutOfRange ∧
      exec (.rawWrite index value) s = .refused .rawIndexOutOfRange)

/-- R204 (decision D7, log 15): raw accesses neither write nor read `phase`, the armed flags, `identificationMode` or `currentBank`: two
states that differ in those only answer a raw access with the same data and the same array, and keep what they have. -/
def Obligations.RawAccessIgnoresTheDecoder : Prop :=
  ∀ (s t : State) (r : Request) (rest : List Request), s.isReset = true → t.isReset = true →
    r.kind = 0b011#3 ∨ r.kind = 0b100#3 → r.isTransaction s.capacity = true →
    t.capacity = s.capacity → t.banks = s.banks → s.requests = r :: rest → t.requests = r :: rest →
    ∃ s' t', step s = .next s' ∧ step t = .next t' ∧ s'.dataOut = t'.dataOut ∧ s'.banks = t'.banks ∧
      s.sameDecoder s' ∧ t.sameDecoder t'

/-- R206, derived by the spec from R203 and R250: an image byte loaded before a RESET is lost. -/
def Obligations.ImageLoadedBeforeResetIsLost : Prop :=
  ∀ (s : State) (index : ArrayIndex) (value : Byte) (rest : List Request), s.isReset = true →
    index.toNat < s.capacity.bytes → s.requests = .rawWrite index value :: .reset :: .rawRead index :: rest →
    ∃ t, Sys2Proof.core.run 3 s = .next t ∧ t.dataOut = some 0xFF#8

/-! ### The bank of a bus access -/

/-- R57, R50, R31: in a state that meets the invariant the byte that a Read or a program reaches, and every byte of a
sector, lie inside the array, in the bank named by `currentBank`; so no meaning of any row stops for want of its bank
(the fault `noSuchBank` is the model's own, log 9). -/
def Obligations.BusAccessReachesTheArray : Prop :=
  ∀ (s : State) (addr : Addr) (sector : BitVec 4), s.isReset = true → s.Inv →
    (s.busIndex addr).toNat = s.currentBank.toNat * 65536 + addr.toNat % 65536 ∧
    (s.busIndex addr).toNat < s.capacity.bytes ∧
    (sectorIndex s.currentBank sector).toNat = s.currentBank.toNat * 65536 + sector.toNat * 4096 ∧
    (sectorIndex s.currentBank sector).toNat + 4096 ≤ s.capacity.bytes ∧
    ∀ (i : Instr) (f : Fault), exec i s ≠ .fault f

/-! ### Headline statements -/

/-- R11 `Fill` and R64: erasing a range at once is `MemWrite(start + k, 1, 0xFF)` for every k below n, as the spec
writes it, on the same data. -/
def Obligations.EraseIsTheSpecsFill : Prop :=
  ∀ (m : Memory) (start n : Nat), Memory.wf m → memErase m start n = memFill m start n 0xFF#8

/-- R34, R174, D9: a stale `bankSelectArmed` is never observed. Two states that agree but for it, where no Write could
read it, give the same outcome, the same data and the same array for every stream, at every length. -/
def Obligations.StaleBankSelectArmIsNeverObserved : Prop :=
  ∀ (k : Nat) (s t : State), s.agreeButStaleArm t →
    Result.agreeButStaleArm (Sys2Proof.core.run k s) (Sys2Proof.core.run k t)

/-- R263, which the spec derives: RESYNC brings the decoder to Idle from every legal state, in either strict mode, with every byte,
`currentBank`, `eraseArmed` and `identificationMode` unchanged; `x` is what the Read before it returned. The strict
mode is the spec's own decision D8 (log 6). -/
def Obligations.ResyncReachesIdleAndKeepsMemory : Prop :=
  ∀ (s u : State) (x : Byte) (rest : List Request), s.isReset = true → s.Inv →
    s.requests = [.read 0x0E00FFFF#32, .write 0x0E00FFFF#32 x, .write 0x0E002AAA#32 0x55#8,
      .write 0x0E00FFFF#32 x] ++ rest →
    step s = .next u → u.dataOut = some x →
    ∃ t, Sys2Proof.core.run 3 u = .next t ∧ t.phase = .idle ∧ s.sameBytes t ∧ t.currentBank = s.currentBank ∧
      t.eraseArmed = s.eraseArmed ∧ t.identificationMode = s.identificationMode ∧ t.requests = rest

/-- R257, R133, R134, R261: the armed chip erase as a whole. From Idle, `CMD 0x80` and then `CMD 0x10`, each with its
own unlock, leaves every byte of every bank 0xFF and the decoder Idle and unarmed; `CMD 0x10` alone, unarmed, leaves
every byte as it was. -/
def Obligations.ChipEraseNeedsItsArm : Prop :=
  ∀ (s : State) (rest : List Request), s.isReset = true → s.phase = .idle →
    (s.requests = [.write 0x0E005555#32 0xAA#8, .write 0x0E002AAA#32 0x55#8, .write 0x0E005555#32 0x80#8,
        .write 0x0E005555#32 0xAA#8, .write 0x0E002AAA#32 0x55#8, .write 0x0E005555#32 0x10#8] ++ rest →
      ∃ t, Sys2Proof.core.run 6 s = .next t ∧ (∀ j : ArrayIndex, j.toNat < s.capacity.bytes → t.byteAt j = 0xFF#8) ∧
        t.phase = .idle ∧ t.eraseArmed = false ∧ t.currentBank = s.currentBank ∧
        t.identificationMode = s.identificationMode) ∧
    (s.eraseArmed = false →
      s.requests = [.write 0x0E005555#32 0xAA#8, .write 0x0E002AAA#32 0x55#8, .write 0x0E005555#32 0x10#8] ++ rest →
      Sys2Proof.core.run 3 s = .next { s with requests := rest, dataOut := none })
end

