-- ==== Sys2Proof/Laws/Key.lean ====
section
/-! SUPPORT. The fields of a decode key, and the table's mask test field by field. -/

namespace Sys2Proof.Laws

open Sys2Proof Sys2Proof.Machine

/-- A key from its four fields, the phase as its code. -/
abbrev fieldsKey (k : BitVec 3) (p : BitVec 2) (a : Addr) (v : Byte) : Key := k ++ p ++ a ++ v

theorem makeKey_eq_fieldsKey (k : BitVec 3) (p : Phase) (a : Addr) (v : Byte) :
    makeKey k p a v = fieldsKey k p.code a v := rfl

@[simp] theorem keyKind_fieldsKey (k : BitVec 3) (p : BitVec 2) (a : Addr) (v : Byte) :
    keyKind (fieldsKey k p a v) = k := by
  simp only [keyKind, fieldsKey]
  erw [BitVec.extractLsb'_append_eq_of_le (by omega), BitVec.extractLsb'_append_eq_of_le (by omega)]
  exact BitVec.extractLsb'_append_eq_left

@[simp] theorem keyPhase_fieldsKey (k : BitVec 3) (p : BitVec 2) (a : Addr) (v : Byte) :
    keyPhase (fieldsKey k p a v) = p := by
  simp only [keyPhase, fieldsKey]
  erw [BitVec.extractLsb'_append_eq_of_le (by omega), BitVec.extractLsb'_append_eq_of_le (by omega)]
  exact BitVec.extractLsb'_append_eq_right

@[simp] theorem keyAddr_fieldsKey (k : BitVec 3) (p : BitVec 2) (a : Addr) (v : Byte) :
    keyAddr (fieldsKey k p a v) = a := by
  simp only [keyAddr, fieldsKey]
  erw [BitVec.extractLsb'_append_eq_of_le (by omega)]
  exact BitVec.extractLsb'_append_eq_right

@[simp] theorem keyValue_fieldsKey (k : BitVec 3) (p : BitVec 2) (a : Addr) (v : Byte) :
    keyValue (fieldsKey k p a v) = v := by
  simp only [keyValue, fieldsKey]
  exact BitVec.extractLsb'_append_eq_right

@[simp] theorem keyKind_makeKey (k : BitVec 3) (p : Phase) (a : Addr) (v : Byte) : keyKind (makeKey k p a v) = k :=
  keyKind_fieldsKey ..

@[simp] theorem keyPhase_makeKey (k : BitVec 3) (p : Phase) (a : Addr) (v : Byte) :
    keyPhase (makeKey k p a v) = p.code := keyPhase_fieldsKey ..

@[simp] theorem keyAddr_makeKey (k : BitVec 3) (p : Phase) (a : Addr) (v : Byte) : keyAddr (makeKey k p a v) = a :=
  keyAddr_fieldsKey ..

@[simp] theorem keyValue_makeKey (k : BitVec 3) (p : Phase) (a : Addr) (v : Byte) : keyValue (makeKey k p a v) = v :=
  keyValue_fieldsKey ..

/-- A key is its four fields. -/
theorem fieldsKey_fields (key : Key) :
    fieldsKey (keyKind key) (keyPhase key) (keyAddr key) (keyValue key) = key := by
  apply BitVec.eq_of_getLsbD_eq
  intro i hi
  simp only [fieldsKey, keyKind, keyPhase, keyAddr, keyValue]
  rw [BitVec.getLsbD_append, BitVec.getLsbD_append, BitVec.getLsbD_append]
  simp only [BitVec.getLsbD_extractLsb']
  by_cases h8 : i < 8
  · simp [h8]
  by_cases h40 : i - 8 < 32
  · simp [h8, h40, show 8 + (i - 8) = i by omega]
  by_cases h42 : i - 8 - 32 < 2
  · simp [h8, h40, h42, show 40 + (i - 8 - 32) = i by omega]
  · simp [h8, h40, h42, show 42 + (i - 8 - 32 - 2) = i by omega, show i - 8 - 32 - 2 < 3 by omega]

@[simp] theorem phase_ofCode_code (p : Phase) : Phase.ofCode p.code = p := by cases p <;> decide

@[simp] theorem phase_code_ofCode (c : BitVec 2) : (Phase.ofCode c).code = c := by
  revert c; decide

/-- Every key is a request in a phase. -/
theorem makeKey_fields (key : Key) :
    makeKey (keyKind key) (Phase.ofCode (keyPhase key)) (keyAddr key) (keyValue key) = key := by
  rw [makeKey_eq_fieldsKey, phase_code_ofCode, fieldsKey_fields]

theorem fieldsKey_inj (k k' : BitVec 3) (p p' : BitVec 2) (a a' : Addr) (v v' : Byte) :
    fieldsKey k p a v = fieldsKey k' p' a' v' ↔ k = k' ∧ p = p' ∧ a = a' ∧ v = v' := by
  constructor
  · intro h
    exact ⟨by rw [← keyKind_fieldsKey k p a v, h, keyKind_fieldsKey],
      by rw [← keyPhase_fieldsKey k p a v, h, keyPhase_fieldsKey],
      by rw [← keyAddr_fieldsKey k p a v, h, keyAddr_fieldsKey],
      by rw [← keyValue_fieldsKey k p a v, h, keyValue_fieldsKey]⟩
  · rintro ⟨rfl, rfl, rfl, rfl⟩; rfl

theorem and_fieldsKey (k k' : BitVec 3) (p p' : BitVec 2) (a a' : Addr) (v v' : Byte) :
    fieldsKey k p a v &&& fieldsKey k' p' a' v' = fieldsKey (k &&& k') (p &&& p') (a &&& a') (v &&& v') := by
  simp only [fieldsKey]
  erw [BitVec.and_append, BitVec.and_append, BitVec.and_append]

/-- The table's test `(key & mask) == match`, field by field. -/
theorem mask_test (k k' k'' : BitVec 3) (p p' p'' : BitVec 2) (a a' a'' : Addr) (v v' v'' : Byte) :
    (fieldsKey k p a v &&& fieldsKey k' p' a' v' == fieldsKey k'' p'' a'' v'') =
    (k &&& k' == k'' && p &&& p' == p'' && a &&& a' == a'' && v &&& v' == v'') := by
  rw [and_fieldsKey, Bool.eq_iff_iff]
  simp only [Bool.and_eq_true, beq_iff_eq, fieldsKey_inj, and_assoc]

/-- The address mask of row READ_ID is the identifier test (R86, R190). -/
theorem idMask_test (a : Addr) : (a &&& 0xFFFE#32 == 0#32) = isIdOffset a := by
  rw [isIdOffset, Bool.eq_iff_iff]
  simp only [beq_iff_eq]
  constructor
  · intro h
    apply BitVec.eq_of_getLsbD_eq
    intro i hi
    have hbit := congrArg (fun x => x.getLsbD (1 + i)) h
    have hm : (0xFFFE#32).getLsbD (1 + i) = true := by
      have : ∀ j < 15, (0xFFFE#32).getLsbD (1 + j) = true := by decide
      exact this i hi
    simpa [BitVec.getLsbD_and, BitVec.getLsbD_extractLsb', hi, hm] using hbit
  · intro h
    apply BitVec.eq_of_getLsbD_eq
    intro i hi
    rw [BitVec.getLsbD_and]
    by_cases hr : 1 ≤ i ∧ i < 16
    · have hbit := congrArg (fun x => x.getLsbD (i - 1)) h
      simp only [BitVec.getLsbD_extractLsb', show i - 1 < 15 by omega, show 1 + (i - 1) = i by omega] at hbit
      simp at hbit
      simp [hbit]
    · have hm : (0xFFFE#32).getLsbD i = false := by
        have : ∀ j < 32, ¬ (1 ≤ j ∧ j < 16) → (0xFFFE#32).getLsbD j = false := by decide
        exact this i hi hr
      simp [hm]

/-- The address mask of row CMD_ERASE_SECTOR is the sector test (R84, R86). -/
theorem sectorMask_test (a : Addr) : (a &&& 0xFFFF0FFF#32 == 0x0E000000#32) = sectorMatch a := rfl

theorem and_fullMask32 (a : Addr) : a &&& 0xFFFFFFFF#32 = a := by
  have : (0xFFFFFFFF#32) = BitVec.allOnes 32 := by decide
  rw [this, BitVec.and_allOnes]

theorem and_fullMask8 (v : Byte) : v &&& 0xFF#8 = v := by
  have : (0xFF#8) = BitVec.allOnes 8 := by decide
  rw [this, BitVec.and_allOnes]

/-- A sector address is the address of exactly one sector (R56, R84). -/
theorem sectorMatch_iff (a : Addr) : sectorMatch a = true ↔ a = sectorAddr (sectorOf a) := by
  simp only [sectorMatch, beq_iff_eq, sectorAddr, sectorOf]
  have hmask : (~~~sectorFieldMask) = (0xFFFF#16 ++ 0#4 ++ 0xFFF#12 : BitVec 32) := by decide
  have hbase : sectorBase = (0x0E00#16 ++ 0#4 ++ 0#12 : BitVec 32) := by decide
  have ha : a = (a.extractLsb' 16 16 ++ a.extractLsb' 12 4 ++ a.extractLsb' 0 12 : BitVec 32) := by
    apply BitVec.eq_of_getLsbD_eq
    intro i hi
    rw [BitVec.getLsbD_append, BitVec.getLsbD_append]
    simp only [BitVec.getLsbD_extractLsb']
    by_cases h1 : i < 12
    · simp [h1]
    by_cases h2 : i - 12 < 4
    · simp [h1, h2, show 12 + (i - 12) = i by omega]
    · simp [h1, h2, show 16 + (i - 12 - 4) = i by omega, show i - 12 - 4 < 16 by omega]
  rw [hmask, hbase]
  generalize a.extractLsb' 16 16 = x at *
  generalize a.extractLsb' 12 4 = y at *
  generalize a.extractLsb' 0 12 = z at *
  subst ha
  have hx : x &&& 0xFFFF#16 = x := by
    have : (0xFFFF#16) = BitVec.allOnes 16 := by decide
    rw [this, BitVec.and_allOnes]
  have hz : z &&& 0xFFF#12 = z := by
    have : (0xFFF#12) = BitVec.allOnes 12 := by decide
    rw [this, BitVec.and_allOnes]
  erw [BitVec.and_append, BitVec.and_append, hx, hz]
  constructor
  · intro h
    have h1 := congrArg (BitVec.extractLsb' 16 16) h
    have h2 := congrArg (BitVec.extractLsb' 0 12) h
    erw [BitVec.extractLsb'_append_eq_of_le (by omega), BitVec.extractLsb'_append_eq_left,
      BitVec.extractLsb'_append_eq_of_le (by omega), BitVec.extractLsb'_append_eq_left] at h1
    erw [BitVec.extractLsb'_append_eq_right, BitVec.extractLsb'_append_eq_right] at h2
    subst h1 h2
    rfl
  · intro h
    have h1 := congrArg (BitVec.extractLsb' 16 16) h
    have h2 := congrArg (BitVec.extractLsb' 0 12) h
    erw [BitVec.extractLsb'_append_eq_of_le (by omega), BitVec.extractLsb'_append_eq_left,
      BitVec.extractLsb'_append_eq_of_le (by omega), BitVec.extractLsb'_append_eq_left] at h1
    erw [BitVec.extractLsb'_append_eq_right, BitVec.extractLsb'_append_eq_right] at h2
    subst h1 h2
    simp

@[simp] theorem sectorMatch_sectorAddr (sector : BitVec 4) : sectorMatch (sectorAddr sector) = true := by
  revert sector; decide

@[simp] theorem sectorOf_sectorAddr (sector : BitVec 4) : sectorOf (sectorAddr sector) = sector := by
  revert sector; decide

/-- `CMD_ADDR` is no sector address (R86). -/
@[simp] theorem sectorAddr_ne_cmdAddr (sector : BitVec 4) : sectorAddr sector ≠ cmdAddr := by
  revert sector; decide

@[simp] theorem sectorMatch_cmdAddr : sectorMatch cmdAddr = false := by decide

end Sys2Proof.Laws
end

