-- ==== Sys2Proof/Laws/Decode.lean ====
section
/-! SUPPORT. What the decode table reads from a key, one lemma per kind and phase. Later proofs cite these and
never unfold the table. -/

namespace Sys2Proof.Laws

open Sys2Proof Sys2Proof.Machine

/-! ### The table's masks and patterns, field by field -/

theorem mask_readId : (0x1C0000FFFE00#45) = fieldsKey 7#3 0#2 0xFFFE#32 0#8 := by decide
theorem mask_kind : (0x1C0000000000#45) = fieldsKey 7#3 0#2 0#32 0#8 := by decide
theorem mask_phase : (0x1F0000000000#45) = fieldsKey 7#3 3#2 0#32 0#8 := by decide
theorem mask_full : (0x1FFFFFFFFFFF#45) = fieldsKey 7#3 3#2 0xFFFFFFFF#32 0xFF#8 := by decide
theorem mask_addr : (0x1FFFFFFFFF00#45) = fieldsKey 7#3 3#2 0xFFFFFFFF#32 0#8 := by decide
theorem mask_sector : (0x1FFFFF0FFFFF#45) = fieldsKey 7#3 3#2 0xFFFF0FFF#32 0xFF#8 := by decide

theorem pattern_read : (0x000000000000#45) = fieldsKey 0#3 0#2 0#32 0#8 := by decide
theorem pattern_unlock1 : (0x040E005555AA#45) = fieldsKey 1#3 0#2 0x0E005555#32 0xAA#8 := by decide
theorem pattern_idle : (0x040000000000#45) = fieldsKey 1#3 0#2 0#32 0#8 := by decide
theorem pattern_unlock2 : (0x050E002AAA55#45) = fieldsKey 1#3 1#2 0x0E002AAA#32 0x55#8 := by decide
theorem pattern_unlock1Phase : (0x050000000000#45) = fieldsKey 1#3 1#2 0#32 0#8 := by decide
theorem pattern_readChipId : (0x060E00555590#45) = fieldsKey 1#3 2#2 0x0E005555#32 0x90#8 := by decide
theorem pattern_finishChipId : (0x060E005555F0#45) = fieldsKey 1#3 2#2 0x0E005555#32 0xF0#8 := by decide
theorem pattern_erase : (0x060E00555580#45) = fieldsKey 1#3 2#2 0x0E005555#32 0x80#8 := by decide
theorem pattern_eraseChip : (0x060E00555510#45) = fieldsKey 1#3 2#2 0x0E005555#32 0x10#8 := by decide
theorem pattern_writeByte : (0x060E005555A0#45) = fieldsKey 1#3 2#2 0x0E005555#32 0xA0#8 := by decide
theorem pattern_selectBank : (0x060E005555B0#45) = fieldsKey 1#3 2#2 0x0E005555#32 0xB0#8 := by decide
theorem pattern_unknown : (0x060E00555500#45) = fieldsKey 1#3 2#2 0x0E005555#32 0#8 := by decide
theorem pattern_sector : (0x060E00000030#45) = fieldsKey 1#3 2#2 0x0E000000#32 0x30#8 := by decide
theorem pattern_commandReady : (0x060000000000#45) = fieldsKey 1#3 2#2 0#32 0#8 := by decide
theorem pattern_extended : (0x070000000000#45) = fieldsKey 1#3 3#2 0#32 0#8 := by decide
theorem pattern_bankSelect : (0x070E00000000#45) = fieldsKey 1#3 3#2 0x0E000000#32 0#8 := by decide
theorem pattern_reset : (0x080000000000#45) = fieldsKey 2#3 0#2 0#32 0#8 := by decide
theorem pattern_rawRead : (0x0C0000000000#45) = fieldsKey 3#3 0#2 0#32 0#8 := by decide
theorem pattern_rawWrite : (0x100000000000#45) = fieldsKey 4#3 0#2 0#32 0#8 := by decide

/-- Row selection on a key given by its fields, over the whole table. -/
theorem decode_fields (ctx : DecodeContext) (k : BitVec 3) (p : BitVec 2) (a : Addr) (v : Byte) :
    decode ctx (fieldsKey k p a v) =
      if k = 0#3 then .ok (if ctx.identificationMode && isIdOffset a then .readId a else .readArray a)
      else if k = 1#3 then .ok (
        if p = 0#2 then (if isUnlockWrite1 a v then .unlock1 else .idleIgnore a v)
        else if p = 1#2 then (if isUnlockWrite2 a v then .unlock2 else .unlock1Ignore a v)
        else if p = 2#2 then (
          if a = cmdAddr then (
            if v = codeReadChipId then .cmdReadChipId
            else if v = codeFinishChipId then .cmdFinishChipId
            else if v = codeErase then .cmdErase
            else if v = codeEraseChip then .cmdEraseChip
            else if v = codeWriteByte then .cmdWriteByte
            else if v = codeSelectBank then
              (match ctx.capacity with | .large => .cmdSelectBank | .small => .cmdSelectBankIgnored)
            else .cmdUnknown v)
          else if isSectorEraseWrite a v then .cmdEraseSector (sectorOf a)
          else .cmdDiscard a v)
        else (
          if ctx.writeArmed then .extProgram a v
          else if ctx.bankSelectArmed && a == bankSelectAddr then .extSelectBank v
          else .extDiscard a v))
      else if k = 2#3 then .ok .reset
      else if k = 3#3 then
        (if a.toNat < ctx.capacity.bytes then .ok (.rawRead (a.extractLsb' 0 17)) else .error .rawIndexOutOfRange)
      else if k = 4#3 then
        (if a.toNat < ctx.capacity.bytes then .ok (.rawWrite (a.extractLsb' 0 17) v) else .error .rawIndexOutOfRange)
      else .error .notATransaction := by
  have kinds : ∀ k : BitVec 3, k = 0 ∨ k = 1 ∨ k = 2 ∨ k = 3 ∨ k = 4 ∨ k = 5 ∨ k = 6 ∨ k = 7 := by decide
  have phases : ∀ p : BitVec 2, p = 0 ∨ p = 1 ∨ p = 2 ∨ p = 3 := by decide
  simp only [decode, decodeTable, readRows, unlockRows, commandRows, payloadRows, otherRows, List.cons_append,
    List.nil_append, List.find?_cons, List.find?_nil, Row.selects, mask_readId, mask_kind, mask_phase, mask_full,
    mask_addr, mask_sector, pattern_read, pattern_unlock1, pattern_idle, pattern_unlock2, pattern_unlock1Phase,
    pattern_readChipId, pattern_finishChipId, pattern_erase, pattern_eraseChip, pattern_writeByte, pattern_selectBank,
    pattern_unknown, pattern_sector, pattern_commandReady, pattern_extended, pattern_bankSelect, pattern_reset,
    pattern_rawRead, pattern_rawWrite, mask_test, idMask_test, sectorMask_test, and_fullMask32, and_fullMask8,
    Condition.holds, keyAddr_fieldsKey, BitVec.and_zero]
  rcases kinds k with rfl | rfl | rfl | rfl | rfl | rfl | rfl | rfl
  · cases ctx.identificationMode <;> cases isIdOffset a <;> simp
  · rcases phases p with rfl | rfl | rfl | rfl
    · have h : (a == 0x0E005555#32 && v == 0xAA#8) = isUnlockWrite1 a v := rfl
      simp [h]; cases isUnlockWrite1 a v <;> simp
    · have h : (a == 0x0E002AAA#32 && v == 0x55#8) = isUnlockWrite2 a v := rfl
      simp [h]; cases isUnlockWrite2 a v <;> simp
    · have h : (sectorMatch a && v == 0x30#8) = isSectorEraseWrite a v := rfl
      by_cases ha : a = 0x0E005555#32
      · subst ha
        have hc : (cmdAddr = 0x0E005555#32) := rfl
        by_cases h1 : v = 0x90#8
        · subst h1; simp [hc, codeReadChipId]
        by_cases h2 : v = 0xF0#8
        · subst h2; simp [hc, codeReadChipId, codeFinishChipId]
        by_cases h3 : v = 0x80#8
        · subst h3; simp [hc, codeReadChipId, codeFinishChipId, codeErase]
        by_cases h4 : v = 0x10#8
        · subst h4; simp [hc, codeReadChipId, codeFinishChipId, codeErase, codeEraseChip]
        by_cases h5 : v = 0xA0#8
        · subst h5; simp [hc, codeReadChipId, codeFinishChipId, codeErase, codeEraseChip, codeWriteByte]
        by_cases h6 : v = 0xB0#8
        · subst h6
          have hl : (Capacity.small == Capacity.large) = false := by decide
          cases hcap : ctx.capacity <;>
            simp [hl, hc, codeReadChipId, codeFinishChipId, codeErase, codeEraseChip, codeWriteByte, codeSelectBank]
        · simp [hc, codeReadChipId, codeFinishChipId, codeErase, codeEraseChip, codeWriteByte, codeSelectBank,
            h1, h2, h3, h4, h5, h6, beq_false_of_ne]
      · have hc : ¬ a = cmdAddr := ha
        simp [h, ha, hc, beq_false_of_ne]; cases isSectorEraseWrite a v <;> simp
    · have hb : bankSelectAddr = 0x0E000000#32 := rfl
      by_cases ha : a = 0x0E000000#32
      · subst ha; cases ctx.writeArmed <;> cases ctx.bankSelectArmed <;> simp [hb]
      · cases ctx.writeArmed <;> simp [ha, hb, beq_false_of_ne]
  · simp
  · by_cases ha : a.toNat < ctx.capacity.bytes <;> simp [ha, keyIndex, kindRawRead]
  · by_cases ha : a.toNat < ctx.capacity.bytes <;> simp [ha, keyIndex, kindRawWrite]
  all_goals simp [kindRawRead, kindRawWrite]

/-! ### One lemma per kind and phase -/

/-- What decoding reads: the kind, the address and the value always, and of the phase and the context only what the
kind's rows read. -/
theorem decode_congr {c d : DecodeContext} {k : BitVec 3} {p q : BitVec 2} {a : Addr} {v : Byte}
    (hcap : c.capacity = d.capacity)
    (hread : k = 0#3 → (c.identificationMode && isIdOffset a) = (d.identificationMode && isIdOffset a))
    (hwrite : k = 1#3 → p = q ∧ c.writeArmed = d.writeArmed ∧ (q = 3#2 → c.bankSelectArmed = d.bankSelectArmed)) :
    decode c (fieldsKey k p a v) = decode d (fieldsKey k q a v) := by
  have phases : ∀ q : BitVec 2, q = 3#2 ∨ q = 0#2 ∨ q = 1#2 ∨ q = 2#2 := by decide
  rw [decode_fields, decode_fields, hcap]
  by_cases h0 : k = 0#3
  · rw [if_pos h0, if_pos h0, hread h0]
  by_cases h1 : k = 1#3
  · obtain ⟨rfl, hw, hb⟩ := hwrite h1
    rw [if_neg h0, if_neg h0, if_pos h1, if_pos h1, hw]
    rcases phases p with rfl | rfl | rfl | rfl
    · rw [hb rfl]
    all_goals rfl
  · simp only [h0, h1, if_false]

/-- A READ key (R190, R191). -/
theorem decode_read (ctx : DecodeContext) (p : Phase) (a : Addr) (v : Byte) :
    decode ctx (makeKey kindRead p a v) =
      .ok (if ctx.identificationMode && isIdOffset a then .readId a else .readArray a) := by
  rw [makeKey_eq_fieldsKey, decode_fields]; rfl

/-- A WRITE key in Idle (R111, R112). -/
theorem decode_write_idle (ctx : DecodeContext) (a : Addr) (v : Byte) :
    decode ctx (makeKey kindWrite .idle a v) = .ok (if isUnlockWrite1 a v then .unlock1 else .idleIgnore a v) := by
  rw [makeKey_eq_fieldsKey, decode_fields]; rfl

/-- A WRITE key in Unlock1 (R113, R114). -/
theorem decode_write_unlock1 (ctx : DecodeContext) (a : Addr) (v : Byte) :
    decode ctx (makeKey kindWrite .unlock1 a v) =
      .ok (if isUnlockWrite2 a v then .unlock2 else .unlock1Ignore a v) := by
  rw [makeKey_eq_fieldsKey, decode_fields]; rfl

/-- A WRITE key in CommandReady (R131 to R140). -/
theorem decode_write_commandReady (ctx : DecodeContext) (a : Addr) (v : Byte) :
    decode ctx (makeKey kindWrite .commandReady a v) = .ok (
      if a = cmdAddr then (
        if v = codeReadChipId then .cmdReadChipId
        else if v = codeFinishChipId then .cmdFinishChipId
        else if v = codeErase then .cmdErase
        else if v = codeEraseChip then .cmdEraseChip
        else if v = codeWriteByte then .cmdWriteByte
        else if v = codeSelectBank then
          (match ctx.capacity with | .large => .cmdSelectBank | .small => .cmdSelectBankIgnored)
        else .cmdUnknown v)
      else if isSectorEraseWrite a v then .cmdEraseSector (sectorOf a)
      else .cmdDiscard a v) := by
  rw [makeKey_eq_fieldsKey, decode_fields]; rfl

/-- A WRITE key in Extended (R171 to R174). -/
theorem decode_write_extended (ctx : DecodeContext) (a : Addr) (v : Byte) :
    decode ctx (makeKey kindWrite .extended a v) = .ok (
      if ctx.writeArmed then .extProgram a v
      else if ctx.bankSelectArmed && a == bankSelectAddr then .extSelectBank v
      else .extDiscard a v) := by
  rw [makeKey_eq_fieldsKey, decode_fields]; rfl

/-- A RESET key (R250). -/
theorem decode_reset (ctx : DecodeContext) (p : Phase) (a : Addr) (v : Byte) :
    decode ctx (makeKey kindReset p a v) = .ok .reset := by
  rw [makeKey_eq_fieldsKey, decode_fields]; rfl

/-- A RAW_READ key (R202, R209). -/
theorem decode_rawRead (ctx : DecodeContext) (p : Phase) (a : Addr) (v : Byte) :
    decode ctx (makeKey kindRawRead p a v) =
      if a.toNat < ctx.capacity.bytes then .ok (.rawRead (a.extractLsb' 0 17)) else .error .rawIndexOutOfRange := by
  rw [makeKey_eq_fieldsKey, decode_fields]; rfl

/-- A RAW_WRITE key (R203, R209). -/
theorem decode_rawWrite (ctx : DecodeContext) (p : Phase) (a : Addr) (v : Byte) :
    decode ctx (makeKey kindRawWrite p a v) =
      if a.toNat < ctx.capacity.bytes then .ok (.rawWrite (a.extractLsb' 0 17) v) else .error .rawIndexOutOfRange := by
  rw [makeKey_eq_fieldsKey, decode_fields]; rfl

/-- A key of kind 101, 110 or 111 (R88). -/
theorem decode_otherKind (ctx : DecodeContext) (k : BitVec 3) (p : Phase) (a : Addr) (v : Byte)
    (h : 4 < k.toNat) : decode ctx (makeKey k p a v) = .error .notATransaction := by
  have kinds : ∀ k : BitVec 3, 4 < k.toNat → k = 5#3 ∨ k = 6#3 ∨ k = 7#3 := by decide
  rw [makeKey_eq_fieldsKey, decode_fields]
  rcases kinds k h with rfl | rfl | rfl <;> rfl

/-! ### The index of a raw transaction -/

@[simp] theorem extractIndex_setWidth (i : ArrayIndex) : (i.setWidth 32).extractLsb' 0 17 = i := by
  apply BitVec.eq_of_toNat_eq
  have := i.isLt
  simp only [BitVec.extractLsb'_toNat, BitVec.toNat_setWidth, Nat.shiftRight_zero]
  omega

@[simp] theorem toNat_setWidth_index (i : ArrayIndex) : (i.setWidth 32).toNat = i.toNat := by
  have := i.isLt
  simp only [BitVec.toNat_setWidth]
  omega

theorem capacity_bytes_le (c : Capacity) : c.bytes ≤ 131072 := by cases c <;> decide

/-- A raw address in range is the zero extension of its index. -/
theorem setWidth_extractIndex (c : Capacity) (a : Addr) (h : a.toNat < c.bytes) :
    (a.extractLsb' 0 17).setWidth 32 = a := by
  apply BitVec.eq_of_toNat_eq
  have := capacity_bytes_le c
  simp only [BitVec.extractLsb'_toNat, BitVec.toNat_setWidth, Nat.shiftRight_zero]
  omega

end Sys2Proof.Laws
end

