-- ==== Sys2Proof/Laws/Memory.lean ====
section
/-! SUPPORT. The laws of the array: reads after writes and erases, and the canonical form. -/

namespace Sys2Proof.Laws

open Sys2Proof Sys2Proof.Machine

@[simp] theorem memRead_nil (i : Nat) : memRead [] i = erased := rfl

theorem memRead_cons (c : Host.Cell) (m : Memory) (i : Nat) :
    memRead (c :: m) i = if c.1 = i then c.2 else memRead m i := rfl

/-- An index below every listed one reads as erased. -/
theorem memRead_of_lt {m : Memory} {i : Nat} (h : ∀ c ∈ m, i < c.1) : memRead m i = erased := by
  induction m with
  | nil => rfl
  | cons c m ih =>
    have hc := h c (by simp)
    rw [memRead_cons, if_neg (by omega)]
    exact ih fun d hd => h d (by simp [hd])

/-- A read through a cell put in front. -/
theorem memRead_memCons {m : Memory} {i : Nat} (v : Byte) (j : Nat) (h : ∀ c ∈ m, i < c.1) :
    memRead (memCons i v m) j = if j = i then v else memRead m j := by
  unfold memCons
  by_cases hv : v = erased
  · subst hv
    by_cases hj : j = i
    · subst hj; simp [memRead_of_lt h]
    · simp [hj]
  · by_cases hj : j = i
    · subst hj; simp [hv, memRead_cons]
    · simp [hv, memRead_cons, hj, Ne.symm hj]

theorem wf_nil : Memory.wf [] := by simp [Memory.wf]

theorem wf_cons {c : Host.Cell} {m : Memory} :
    Memory.wf (c :: m) ↔ (∀ d ∈ m, c.1 < d.1) ∧ c.2 ≠ erased ∧ Memory.wf m := by
  simp only [Memory.wf, List.pairwise_cons, List.forall_mem_cons]
  tauto

/-- A read after a write: the byte written at its index, and every other byte as before. -/
theorem memRead_memWrite {m : Memory} (hm : Memory.wf m) (i j : Nat) (v : Byte) :
    memRead (memWrite m i v) j = if j = i then v else memRead m j := by
  induction m with
  | nil => exact memRead_memCons v j (by simp)
  | cons c m ih =>
    obtain ⟨hlt, hne, hwf⟩ := wf_cons.1 hm
    simp only [memWrite]
    by_cases h1 : i < c.1
    · rw [if_pos h1]
      refine memRead_memCons v j fun d hd => ?_
      rcases List.mem_cons.1 hd with rfl | hd
      · exact h1
      · exact lt_trans h1 (hlt d hd)
    by_cases h2 : i = c.1
    · rw [if_neg h1, if_pos h2, memRead_memCons v j (by rw [h2]; exact hlt), memRead_cons]
      by_cases hj : j = i
      · simp [hj]
      · simp [hj, show c.1 ≠ j by omega]
    · rw [if_neg h1, if_neg h2, memRead_cons, memRead_cons, ih hwf]
      by_cases hj : j = i
      · simp [hj, show c.1 ≠ i by omega]
      · simp [hj]

/-- Where a written memory's cells come from. -/
theorem mem_memWrite {m : Memory} {i : Nat} {v : Byte} {d : Host.Cell} (h : d ∈ memWrite m i v) :
    d ∈ m ∨ (d = (i, v) ∧ v ≠ erased) := by
  have hcons : ∀ m : Memory, d ∈ memCons i v m → d ∈ m ∨ (d = (i, v) ∧ v ≠ erased) := by
    intro m h
    unfold memCons at h
    split at h
    · exact .inl h
    · rcases List.mem_cons.1 h with rfl | h
      · exact .inr ⟨rfl, by assumption⟩
      · exact .inl h
  induction m with
  | nil => exact hcons [] h
  | cons c m ih =>
    simp only [memWrite] at h
    split at h
    · exact hcons _ h
    · split at h
      · exact (hcons _ h).imp_left (List.mem_cons_of_mem c)
      · rcases List.mem_cons.1 h with rfl | h
        · exact .inl (by simp)
        · exact (ih h).imp_left (List.mem_cons_of_mem c)

theorem wf_memCons {m : Memory} {i : Nat} {v : Byte} (hm : Memory.wf m) (h : ∀ c ∈ m, i < c.1) :
    Memory.wf (memCons i v m) := by
  unfold memCons
  split
  · exact hm
  · exact wf_cons.2 ⟨h, by assumption, hm⟩

/-- A write keeps the canonical form. -/
theorem wf_memWrite {m : Memory} (hm : Memory.wf m) (i : Nat) (v : Byte) : Memory.wf (memWrite m i v) := by
  induction m with
  | nil => exact wf_memCons hm (by simp)
  | cons c m ih =>
    obtain ⟨hlt, hne, hwf⟩ := wf_cons.1 hm
    simp only [memWrite]
    by_cases h1 : i < c.1
    · rw [if_pos h1]
      refine wf_memCons hm fun d hd => ?_
      rcases List.mem_cons.1 hd with rfl | hd
      · exact h1
      · exact lt_trans h1 (hlt d hd)
    by_cases h2 : i = c.1
    · rw [if_neg h1, if_pos h2]
      exact wf_memCons hwf (by rw [h2]; exact hlt)
    · rw [if_neg h1, if_neg h2]
      refine wf_cons.2 ⟨fun d hd => ?_, hne, ih hwf⟩
      rcases mem_memWrite hd with hd | ⟨rfl, -⟩
      · exact hlt d hd
      · show c.1 < i
        omega

/-- A write inside the array keeps memory inside it. -/
theorem within_memWrite {m : Memory} {n i : Nat} {v : Byte} (hm : Memory.within m n) (hi : i < n) :
    Memory.within (memWrite m i v) n := by
  intro d hd
  rcases mem_memWrite hd with hd | ⟨rfl, -⟩
  · exact hm d hd
  · exact hi

/-- A read after an erase: 0xFF in the range, and every other byte as before. -/
theorem memRead_memErase (m : Memory) (start n j : Nat) :
    memRead (memErase m start n) j = if start ≤ j ∧ j < start + n then erased else memRead m j := by
  induction m with
  | nil => simp [memErase]
  | cons c m ih =>
    unfold memErase at ih ⊢
    rw [List.filter_cons]
    by_cases hc : start ≤ c.1 ∧ c.1 < start + n
    · simp only [hc.1, hc.2, decide_true, Bool.and_self, Bool.not_true, Bool.false_eq_true, if_false]
      rw [ih, memRead_cons]
      by_cases hj : c.1 = j
      · subst hj; simp [hc]
      · simp [hj]
    · have hf : (!(decide (start ≤ c.1) && decide (c.1 < start + n))) = true := by
        simpa [Bool.and_eq_true, imp_iff_not_or] using hc
      rw [if_pos hf, memRead_cons, memRead_cons, ih]
      by_cases hj : c.1 = j
      · subst hj; simp [hc]
      · simp [hj]

/-- An erase keeps the canonical form. -/
theorem wf_memErase {m : Memory} (hm : Memory.wf m) (start n : Nat) : Memory.wf (memErase m start n) :=
  ⟨hm.1.filter _, fun c hc => hm.2 c (List.mem_of_mem_filter hc)⟩

/-- An erase keeps memory inside the array. -/
theorem within_memErase {m : Memory} {bytes : Nat} (hm : Memory.within m bytes) (start n : Nat) :
    Memory.within (memErase m start n) bytes := fun c hc => hm c (List.mem_of_mem_filter hc)

/-- A fill keeps the canonical form. -/
theorem wf_memFill {m : Memory} (hm : Memory.wf m) (start n : Nat) (v : Byte) : Memory.wf (memFill m start n v) := by
  induction n with
  | zero => exact hm
  | succ n ih => exact wf_memWrite ih _ _

/-- A fill reads as its value in the range and as before elsewhere. -/
theorem memRead_memFill {m : Memory} (hm : Memory.wf m) (start n j : Nat) (v : Byte) :
    memRead (memFill m start n v) j = if start ≤ j ∧ j < start + n then v else memRead m j := by
  induction n with
  | zero => rw [if_neg (by omega)]; rfl
  | succ n ih =>
    rw [memFill, memRead_memWrite (wf_memFill hm _ _ _), ih]
    split_ifs <;> first | rfl | omega

/-- Memories in canonical form that read the same are the same data. -/
theorem wf_ext {m m' : Memory} (hm : Memory.wf m) (hm' : Memory.wf m') (h : ∀ i, memRead m i = memRead m' i) :
    m = m' := by
  induction m generalizing m' with
  | nil =>
    cases m' with
    | nil => rfl
    | cons c m' =>
      have := h c.1
      simp only [memRead_nil, memRead_cons, if_true] at this
      exact absurd this.symm (wf_cons.1 hm').2.1
  | cons c m ih =>
    cases m' with
    | nil =>
      have := h c.1
      simp only [memRead_nil, memRead_cons, if_true] at this
      exact absurd this (wf_cons.1 hm).2.1
    | cons d m' =>
      obtain ⟨hlt, hne, hwf⟩ := wf_cons.1 hm
      obtain ⟨hlt', hne', hwf'⟩ := wf_cons.1 hm'
      have hcd : c.1 = d.1 := by
        rcases lt_trichotomy c.1 d.1 with hl | he | hl
        · have := h c.1
          rw [memRead_cons, if_pos rfl, memRead_cons, if_neg (by omega),
            memRead_of_lt fun e he => lt_trans hl (hlt' e he)] at this
          exact absurd this hne
        · exact he
        · have := h d.1
          rw [memRead_cons, if_neg (by omega), memRead_of_lt fun e he => lt_trans hl (hlt e he),
            memRead_cons, if_pos rfl] at this
          exact absurd this.symm hne'
      have hval : c.2 = d.2 := by
        have := h c.1
        rwa [memRead_cons, if_pos rfl, memRead_cons, if_pos hcd.symm] at this
      have htail : m = m' := by
        refine ih hwf hwf' fun i => ?_
        have := h i
        rw [memRead_cons, memRead_cons] at this
        by_cases hi : c.1 = i
        · rw [memRead_of_lt fun e he => hi ▸ hlt e he,
            memRead_of_lt fun e he => (hcd.symm.trans hi) ▸ hlt' e he]
        · rwa [if_neg hi, if_neg (by omega)] at this
      rw [show c = d from Prod.ext hcd hval, htail]

/-! ### The same at the level of State -/

theorem toNat_index_inj {i j : ArrayIndex} : i.toNat = j.toNat ↔ i = j := BitVec.toNat_inj

theorem byteAt_writeByte {s : State} (hm : Memory.wf s.banks) (i j : ArrayIndex) (v : Byte) :
    (s.writeByte i v).byteAt j = if j = i then v else s.byteAt j := by
  simp only [State.byteAt, State.writeByte, memRead_memWrite hm, toNat_index_inj]

theorem byteAt_eraseBytes (s : State) (start n : Nat) (j : ArrayIndex) :
    (s.eraseBytes start n).byteAt j =
      if start ≤ j.toNat ∧ j.toNat < start + n then erased else s.byteAt j :=
  memRead_memErase ..

@[simp] theorem byteAt_applyReset (s : State) (j : ArrayIndex) : s.applyReset.byteAt j = erased := rfl

/-! ### The array index of a bus access -/

theorem toNat_arrayIndex (b : BitVec 1) (o : Offset) : (arrayIndex b o).toNat = b.toNat * 65536 + o.toNat := by
  have := o.isLt
  show (b ++ o).toNat = _
  rw [BitVec.toNat_append, Nat.shiftLeft_eq, ← Nat.shiftLeft_eq, ← Nat.shiftLeft_add_eq_or_of_lt (by omega),
    Nat.shiftLeft_eq]

theorem toNat_sectorIndex (b : BitVec 1) (n : BitVec 4) :
    (sectorIndex b n).toNat = b.toNat * 65536 + n.toNat * 4096 := by
  revert b n; decide

/-- A bus access through a bank of the array reaches a byte of the array (R31, R50). -/
theorem busIndex_lt {s : State} (h : s.currentBank.toNat < s.capacity.numBanks) (a : Addr) :
    (s.busIndex a).toNat < s.capacity.bytes := by
  have := (offsetOf a).isLt
  rw [State.busIndex, toNat_arrayIndex]
  cases hc : s.capacity <;> simp only [hc, Capacity.numBanks, Capacity.bytes, bankSize] at h ⊢ <;> omega

/-- Every array index is an offset in a bank (R50). -/
theorem arrayIndex_cases (j : ArrayIndex) : ∃ b o, j = arrayIndex b o := by
  refine ⟨j.extractLsb' 16 1, j.extractLsb' 0 16, ?_⟩
  apply BitVec.eq_of_toNat_eq
  have := j.isLt
  rw [toNat_arrayIndex]
  simp only [BitVec.extractLsb'_toNat, Nat.shiftRight_eq_div_pow]
  omega

end Sys2Proof.Laws
end

