-- ==== Sys2Proof/Laws/State.lean ====
section
/-! SUPPORT. One lemma per field per update of State. -/

namespace Sys2Proof.Laws

open Sys2Proof Sys2Proof.Machine

/-! ### `setPhase` -/

@[simp] theorem setPhase_capacity (s : State) (p : Phase) : (s.setPhase p).capacity = s.capacity := rfl
@[simp] theorem setPhase_strictUnlock (s : State) (p : Phase) : (s.setPhase p).strictUnlock = s.strictUnlock := rfl
@[simp] theorem setPhase_isReset (s : State) (p : Phase) : (s.setPhase p).isReset = s.isReset := rfl
@[simp] theorem setPhase_phase (s : State) (p : Phase) : (s.setPhase p).phase = p := rfl
@[simp] theorem setPhase_eraseArmed (s : State) (p : Phase) : (s.setPhase p).eraseArmed = s.eraseArmed := rfl
@[simp] theorem setPhase_writeArmed (s : State) (p : Phase) : (s.setPhase p).writeArmed = s.writeArmed := rfl
@[simp] theorem setPhase_bankSelectArmed (s : State) (p : Phase) : (s.setPhase p).bankSelectArmed = s.bankSelectArmed := rfl
@[simp] theorem setPhase_identificationMode (s : State) (p : Phase) : (s.setPhase p).identificationMode = s.identificationMode := rfl
@[simp] theorem setPhase_currentBank (s : State) (p : Phase) : (s.setPhase p).currentBank = s.currentBank := rfl
@[simp] theorem setPhase_banks (s : State) (p : Phase) : (s.setPhase p).banks = s.banks := rfl
@[simp] theorem setPhase_requests (s : State) (p : Phase) : (s.setPhase p).requests = s.requests := rfl
@[simp] theorem setPhase_dataOut (s : State) (p : Phase) : (s.setPhase p).dataOut = s.dataOut := rfl

/-! ### `setEraseArmed` -/

@[simp] theorem setEraseArmed_capacity (s : State) (b : Bool) : (s.setEraseArmed b).capacity = s.capacity := rfl
@[simp] theorem setEraseArmed_strictUnlock (s : State) (b : Bool) : (s.setEraseArmed b).strictUnlock = s.strictUnlock := rfl
@[simp] theorem setEraseArmed_isReset (s : State) (b : Bool) : (s.setEraseArmed b).isReset = s.isReset := rfl
@[simp] theorem setEraseArmed_phase (s : State) (b : Bool) : (s.setEraseArmed b).phase = s.phase := rfl
@[simp] theorem setEraseArmed_eraseArmed (s : State) (b : Bool) : (s.setEraseArmed b).eraseArmed = b := rfl
@[simp] theorem setEraseArmed_writeArmed (s : State) (b : Bool) : (s.setEraseArmed b).writeArmed = s.writeArmed := rfl
@[simp] theorem setEraseArmed_bankSelectArmed (s : State) (b : Bool) : (s.setEraseArmed b).bankSelectArmed = s.bankSelectArmed := rfl
@[simp] theorem setEraseArmed_identificationMode (s : State) (b : Bool) : (s.setEraseArmed b).identificationMode = s.identificationMode := rfl
@[simp] theorem setEraseArmed_currentBank (s : State) (b : Bool) : (s.setEraseArmed b).currentBank = s.currentBank := rfl
@[simp] theorem setEraseArmed_banks (s : State) (b : Bool) : (s.setEraseArmed b).banks = s.banks := rfl
@[simp] theorem setEraseArmed_requests (s : State) (b : Bool) : (s.setEraseArmed b).requests = s.requests := rfl
@[simp] theorem setEraseArmed_dataOut (s : State) (b : Bool) : (s.setEraseArmed b).dataOut = s.dataOut := rfl

/-! ### `setWriteArmed` -/

@[simp] theorem setWriteArmed_capacity (s : State) (b : Bool) : (s.setWriteArmed b).capacity = s.capacity := rfl
@[simp] theorem setWriteArmed_strictUnlock (s : State) (b : Bool) : (s.setWriteArmed b).strictUnlock = s.strictUnlock := rfl
@[simp] theorem setWriteArmed_isReset (s : State) (b : Bool) : (s.setWriteArmed b).isReset = s.isReset := rfl
@[simp] theorem setWriteArmed_phase (s : State) (b : Bool) : (s.setWriteArmed b).phase = s.phase := rfl
@[simp] theorem setWriteArmed_eraseArmed (s : State) (b : Bool) : (s.setWriteArmed b).eraseArmed = s.eraseArmed := rfl
@[simp] theorem setWriteArmed_writeArmed (s : State) (b : Bool) : (s.setWriteArmed b).writeArmed = b := rfl
@[simp] theorem setWriteArmed_bankSelectArmed (s : State) (b : Bool) : (s.setWriteArmed b).bankSelectArmed = s.bankSelectArmed := rfl
@[simp] theorem setWriteArmed_identificationMode (s : State) (b : Bool) : (s.setWriteArmed b).identificationMode = s.identificationMode := rfl
@[simp] theorem setWriteArmed_currentBank (s : State) (b : Bool) : (s.setWriteArmed b).currentBank = s.currentBank := rfl
@[simp] theorem setWriteArmed_banks (s : State) (b : Bool) : (s.setWriteArmed b).banks = s.banks := rfl
@[simp] theorem setWriteArmed_requests (s : State) (b : Bool) : (s.setWriteArmed b).requests = s.requests := rfl
@[simp] theorem setWriteArmed_dataOut (s : State) (b : Bool) : (s.setWriteArmed b).dataOut = s.dataOut := rfl

/-! ### `setBankSelectArmed` -/

@[simp] theorem setBankSelectArmed_capacity (s : State) (b : Bool) : (s.setBankSelectArmed b).capacity = s.capacity := rfl
@[simp] theorem setBankSelectArmed_strictUnlock (s : State) (b : Bool) : (s.setBankSelectArmed b).strictUnlock = s.strictUnlock := rfl
@[simp] theorem setBankSelectArmed_isReset (s : State) (b : Bool) : (s.setBankSelectArmed b).isReset = s.isReset := rfl
@[simp] theorem setBankSelectArmed_phase (s : State) (b : Bool) : (s.setBankSelectArmed b).phase = s.phase := rfl
@[simp] theorem setBankSelectArmed_eraseArmed (s : State) (b : Bool) : (s.setBankSelectArmed b).eraseArmed = s.eraseArmed := rfl
@[simp] theorem setBankSelectArmed_writeArmed (s : State) (b : Bool) : (s.setBankSelectArmed b).writeArmed = s.writeArmed := rfl
@[simp] theorem setBankSelectArmed_bankSelectArmed (s : State) (b : Bool) : (s.setBankSelectArmed b).bankSelectArmed = b := rfl
@[simp] theorem setBankSelectArmed_identificationMode (s : State) (b : Bool) : (s.setBankSelectArmed b).identificationMode = s.identificationMode := rfl
@[simp] theorem setBankSelectArmed_currentBank (s : State) (b : Bool) : (s.setBankSelectArmed b).currentBank = s.currentBank := rfl
@[simp] theorem setBankSelectArmed_banks (s : State) (b : Bool) : (s.setBankSelectArmed b).banks = s.banks := rfl
@[simp] theorem setBankSelectArmed_requests (s : State) (b : Bool) : (s.setBankSelectArmed b).requests = s.requests := rfl
@[simp] theorem setBankSelectArmed_dataOut (s : State) (b : Bool) : (s.setBankSelectArmed b).dataOut = s.dataOut := rfl

/-! ### `setIdentificationMode` -/

@[simp] theorem setIdentificationMode_capacity (s : State) (b : Bool) : (s.setIdentificationMode b).capacity = s.capacity := rfl
@[simp] theorem setIdentificationMode_strictUnlock (s : State) (b : Bool) : (s.setIdentificationMode b).strictUnlock = s.strictUnlock := rfl
@[simp] theorem setIdentificationMode_isReset (s : State) (b : Bool) : (s.setIdentificationMode b).isReset = s.isReset := rfl
@[simp] theorem setIdentificationMode_phase (s : State) (b : Bool) : (s.setIdentificationMode b).phase = s.phase := rfl
@[simp] theorem setIdentificationMode_eraseArmed (s : State) (b : Bool) : (s.setIdentificationMode b).eraseArmed = s.eraseArmed := rfl
@[simp] theorem setIdentificationMode_writeArmed (s : State) (b : Bool) : (s.setIdentificationMode b).writeArmed = s.writeArmed := rfl
@[simp] theorem setIdentificationMode_bankSelectArmed (s : State) (b : Bool) : (s.setIdentificationMode b).bankSelectArmed = s.bankSelectArmed := rfl
@[simp] theorem setIdentificationMode_identificationMode (s : State) (b : Bool) : (s.setIdentificationMode b).identificationMode = b := rfl
@[simp] theorem setIdentificationMode_currentBank (s : State) (b : Bool) : (s.setIdentificationMode b).currentBank = s.currentBank := rfl
@[simp] theorem setIdentificationMode_banks (s : State) (b : Bool) : (s.setIdentificationMode b).banks = s.banks := rfl
@[simp] theorem setIdentificationMode_requests (s : State) (b : Bool) : (s.setIdentificationMode b).requests = s.requests := rfl
@[simp] theorem setIdentificationMode_dataOut (s : State) (b : Bool) : (s.setIdentificationMode b).dataOut = s.dataOut := rfl

/-! ### `setCurrentBank` -/

@[simp] theorem setCurrentBank_capacity (s : State) (b : BitVec 1) : (s.setCurrentBank b).capacity = s.capacity := rfl
@[simp] theorem setCurrentBank_strictUnlock (s : State) (b : BitVec 1) : (s.setCurrentBank b).strictUnlock = s.strictUnlock := rfl
@[simp] theorem setCurrentBank_isReset (s : State) (b : BitVec 1) : (s.setCurrentBank b).isReset = s.isReset := rfl
@[simp] theorem setCurrentBank_phase (s : State) (b : BitVec 1) : (s.setCurrentBank b).phase = s.phase := rfl
@[simp] theorem setCurrentBank_eraseArmed (s : State) (b : BitVec 1) : (s.setCurrentBank b).eraseArmed = s.eraseArmed := rfl
@[simp] theorem setCurrentBank_writeArmed (s : State) (b : BitVec 1) : (s.setCurrentBank b).writeArmed = s.writeArmed := rfl
@[simp] theorem setCurrentBank_bankSelectArmed (s : State) (b : BitVec 1) : (s.setCurrentBank b).bankSelectArmed = s.bankSelectArmed := rfl
@[simp] theorem setCurrentBank_identificationMode (s : State) (b : BitVec 1) : (s.setCurrentBank b).identificationMode = s.identificationMode := rfl
@[simp] theorem setCurrentBank_currentBank (s : State) (b : BitVec 1) : (s.setCurrentBank b).currentBank = b := rfl
@[simp] theorem setCurrentBank_banks (s : State) (b : BitVec 1) : (s.setCurrentBank b).banks = s.banks := rfl
@[simp] theorem setCurrentBank_requests (s : State) (b : BitVec 1) : (s.setCurrentBank b).requests = s.requests := rfl
@[simp] theorem setCurrentBank_dataOut (s : State) (b : BitVec 1) : (s.setCurrentBank b).dataOut = s.dataOut := rfl

/-! ### `answer` -/

@[simp] theorem answer_capacity (s : State) (v : Byte) : (s.answer v).capacity = s.capacity := rfl
@[simp] theorem answer_strictUnlock (s : State) (v : Byte) : (s.answer v).strictUnlock = s.strictUnlock := rfl
@[simp] theorem answer_isReset (s : State) (v : Byte) : (s.answer v).isReset = s.isReset := rfl
@[simp] theorem answer_phase (s : State) (v : Byte) : (s.answer v).phase = s.phase := rfl
@[simp] theorem answer_eraseArmed (s : State) (v : Byte) : (s.answer v).eraseArmed = s.eraseArmed := rfl
@[simp] theorem answer_writeArmed (s : State) (v : Byte) : (s.answer v).writeArmed = s.writeArmed := rfl
@[simp] theorem answer_bankSelectArmed (s : State) (v : Byte) : (s.answer v).bankSelectArmed = s.bankSelectArmed := rfl
@[simp] theorem answer_identificationMode (s : State) (v : Byte) : (s.answer v).identificationMode = s.identificationMode := rfl
@[simp] theorem answer_currentBank (s : State) (v : Byte) : (s.answer v).currentBank = s.currentBank := rfl
@[simp] theorem answer_banks (s : State) (v : Byte) : (s.answer v).banks = s.banks := rfl
@[simp] theorem answer_requests (s : State) (v : Byte) : (s.answer v).requests = s.requests := rfl
@[simp] theorem answer_dataOut (s : State) (v : Byte) : (s.answer v).dataOut = some v := rfl

/-! ### `consume` -/

@[simp] theorem consume_capacity (s : State) (rest : List Request) : (s.consume rest).capacity = s.capacity := rfl
@[simp] theorem consume_strictUnlock (s : State) (rest : List Request) : (s.consume rest).strictUnlock = s.strictUnlock := rfl
@[simp] theorem consume_isReset (s : State) (rest : List Request) : (s.consume rest).isReset = s.isReset := rfl
@[simp] theorem consume_phase (s : State) (rest : List Request) : (s.consume rest).phase = s.phase := rfl
@[simp] theorem consume_eraseArmed (s : State) (rest : List Request) : (s.consume rest).eraseArmed = s.eraseArmed := rfl
@[simp] theorem consume_writeArmed (s : State) (rest : List Request) : (s.consume rest).writeArmed = s.writeArmed := rfl
@[simp] theorem consume_bankSelectArmed (s : State) (rest : List Request) : (s.consume rest).bankSelectArmed = s.bankSelectArmed := rfl
@[simp] theorem consume_identificationMode (s : State) (rest : List Request) : (s.consume rest).identificationMode = s.identificationMode := rfl
@[simp] theorem consume_currentBank (s : State) (rest : List Request) : (s.consume rest).currentBank = s.currentBank := rfl
@[simp] theorem consume_banks (s : State) (rest : List Request) : (s.consume rest).banks = s.banks := rfl
@[simp] theorem consume_requests (s : State) (rest : List Request) : (s.consume rest).requests = rest := rfl
@[simp] theorem consume_dataOut (s : State) (rest : List Request) : (s.consume rest).dataOut = none := rfl

/-! ### `writeByte` -/

@[simp] theorem writeByte_capacity (s : State) (i : ArrayIndex) (v : Byte) : (s.writeByte i v).capacity = s.capacity := rfl
@[simp] theorem writeByte_strictUnlock (s : State) (i : ArrayIndex) (v : Byte) : (s.writeByte i v).strictUnlock = s.strictUnlock := rfl
@[simp] theorem writeByte_isReset (s : State) (i : ArrayIndex) (v : Byte) : (s.writeByte i v).isReset = s.isReset := rfl
@[simp] theorem writeByte_phase (s : State) (i : ArrayIndex) (v : Byte) : (s.writeByte i v).phase = s.phase := rfl
@[simp] theorem writeByte_eraseArmed (s : State) (i : ArrayIndex) (v : Byte) : (s.writeByte i v).eraseArmed = s.eraseArmed := rfl
@[simp] theorem writeByte_writeArmed (s : State) (i : ArrayIndex) (v : Byte) : (s.writeByte i v).writeArmed = s.writeArmed := rfl
@[simp] theorem writeByte_bankSelectArmed (s : State) (i : ArrayIndex) (v : Byte) : (s.writeByte i v).bankSelectArmed = s.bankSelectArmed := rfl
@[simp] theorem writeByte_identificationMode (s : State) (i : ArrayIndex) (v : Byte) : (s.writeByte i v).identificationMode = s.identificationMode := rfl
@[simp] theorem writeByte_currentBank (s : State) (i : ArrayIndex) (v : Byte) : (s.writeByte i v).currentBank = s.currentBank := rfl
@[simp] theorem writeByte_banks (s : State) (i : ArrayIndex) (v : Byte) : (s.writeByte i v).banks = memWrite s.banks i.toNat v := rfl
@[simp] theorem writeByte_requests (s : State) (i : ArrayIndex) (v : Byte) : (s.writeByte i v).requests = s.requests := rfl
@[simp] theorem writeByte_dataOut (s : State) (i : ArrayIndex) (v : Byte) : (s.writeByte i v).dataOut = s.dataOut := rfl

/-! ### `eraseBytes` -/

@[simp] theorem eraseBytes_capacity (s : State) (start n : Nat) : (s.eraseBytes start n).capacity = s.capacity := rfl
@[simp] theorem eraseBytes_strictUnlock (s : State) (start n : Nat) : (s.eraseBytes start n).strictUnlock = s.strictUnlock := rfl
@[simp] theorem eraseBytes_isReset (s : State) (start n : Nat) : (s.eraseBytes start n).isReset = s.isReset := rfl
@[simp] theorem eraseBytes_phase (s : State) (start n : Nat) : (s.eraseBytes start n).phase = s.phase := rfl
@[simp] theorem eraseBytes_eraseArmed (s : State) (start n : Nat) : (s.eraseBytes start n).eraseArmed = s.eraseArmed := rfl
@[simp] theorem eraseBytes_writeArmed (s : State) (start n : Nat) : (s.eraseBytes start n).writeArmed = s.writeArmed := rfl
@[simp] theorem eraseBytes_bankSelectArmed (s : State) (start n : Nat) : (s.eraseBytes start n).bankSelectArmed = s.bankSelectArmed := rfl
@[simp] theorem eraseBytes_identificationMode (s : State) (start n : Nat) : (s.eraseBytes start n).identificationMode = s.identificationMode := rfl
@[simp] theorem eraseBytes_currentBank (s : State) (start n : Nat) : (s.eraseBytes start n).currentBank = s.currentBank := rfl
@[simp] theorem eraseBytes_banks (s : State) (start n : Nat) : (s.eraseBytes start n).banks = memErase s.banks start n := rfl
@[simp] theorem eraseBytes_requests (s : State) (start n : Nat) : (s.eraseBytes start n).requests = s.requests := rfl
@[simp] theorem eraseBytes_dataOut (s : State) (start n : Nat) : (s.eraseBytes start n).dataOut = s.dataOut := rfl

/-! ### `applyReset` -/

@[simp] theorem applyReset_capacity (s : State) : (s.applyReset).capacity = s.capacity := rfl
@[simp] theorem applyReset_strictUnlock (s : State) : (s.applyReset).strictUnlock = s.strictUnlock := rfl
@[simp] theorem applyReset_isReset (s : State) : (s.applyReset).isReset = true := rfl
@[simp] theorem applyReset_phase (s : State) : (s.applyReset).phase = .idle := rfl
@[simp] theorem applyReset_eraseArmed (s : State) : (s.applyReset).eraseArmed = false := rfl
@[simp] theorem applyReset_writeArmed (s : State) : (s.applyReset).writeArmed = false := rfl
@[simp] theorem applyReset_bankSelectArmed (s : State) : (s.applyReset).bankSelectArmed = false := rfl
@[simp] theorem applyReset_identificationMode (s : State) : (s.applyReset).identificationMode = false := rfl
@[simp] theorem applyReset_currentBank (s : State) : (s.applyReset).currentBank = 0#1 := rfl
@[simp] theorem applyReset_banks (s : State) : (s.applyReset).banks = [] := rfl
@[simp] theorem applyReset_requests (s : State) : (s.applyReset).requests = s.requests := rfl
@[simp] theorem applyReset_dataOut (s : State) : (s.applyReset).dataOut = s.dataOut := rfl

/-! ### What depends on a few fields only -/

@[simp] theorem setPhase_byteAt (s : State) (p : Phase) (j : ArrayIndex) : (s.setPhase p).byteAt j = s.byteAt j := rfl
@[simp] theorem setPhase_busIndex (s : State) (p : Phase) (a : Addr) : (s.setPhase p).busIndex a = s.busIndex a := rfl
@[simp] theorem setPhase_context (s : State) (p : Phase) : (s.setPhase p).context = s.context := rfl
@[simp] theorem setEraseArmed_byteAt (s : State) (b : Bool) (j : ArrayIndex) : (s.setEraseArmed b).byteAt j = s.byteAt j := rfl
@[simp] theorem setEraseArmed_busIndex (s : State) (b : Bool) (a : Addr) : (s.setEraseArmed b).busIndex a = s.busIndex a := rfl
@[simp] theorem setEraseArmed_context (s : State) (b : Bool) : (s.setEraseArmed b).context = s.context := rfl
@[simp] theorem setWriteArmed_byteAt (s : State) (b : Bool) (j : ArrayIndex) : (s.setWriteArmed b).byteAt j = s.byteAt j := rfl
@[simp] theorem setWriteArmed_busIndex (s : State) (b : Bool) (a : Addr) : (s.setWriteArmed b).busIndex a = s.busIndex a := rfl
@[simp] theorem setBankSelectArmed_byteAt (s : State) (b : Bool) (j : ArrayIndex) : (s.setBankSelectArmed b).byteAt j = s.byteAt j := rfl
@[simp] theorem setBankSelectArmed_busIndex (s : State) (b : Bool) (a : Addr) : (s.setBankSelectArmed b).busIndex a = s.busIndex a := rfl
@[simp] theorem setIdentificationMode_byteAt (s : State) (b : Bool) (j : ArrayIndex) : (s.setIdentificationMode b).byteAt j = s.byteAt j := rfl
@[simp] theorem setIdentificationMode_busIndex (s : State) (b : Bool) (a : Addr) : (s.setIdentificationMode b).busIndex a = s.busIndex a := rfl
@[simp] theorem setCurrentBank_byteAt (s : State) (b : BitVec 1) (j : ArrayIndex) : (s.setCurrentBank b).byteAt j = s.byteAt j := rfl
@[simp] theorem setCurrentBank_context (s : State) (b : BitVec 1) : (s.setCurrentBank b).context = s.context := rfl
@[simp] theorem answer_byteAt (s : State) (v : Byte) (j : ArrayIndex) : (s.answer v).byteAt j = s.byteAt j := rfl
@[simp] theorem answer_busIndex (s : State) (v : Byte) (a : Addr) : (s.answer v).busIndex a = s.busIndex a := rfl
@[simp] theorem answer_context (s : State) (v : Byte) : (s.answer v).context = s.context := rfl
@[simp] theorem consume_byteAt (s : State) (rest : List Request) (j : ArrayIndex) : (s.consume rest).byteAt j = s.byteAt j := rfl
@[simp] theorem consume_busIndex (s : State) (rest : List Request) (a : Addr) : (s.consume rest).busIndex a = s.busIndex a := rfl
@[simp] theorem consume_context (s : State) (rest : List Request) : (s.consume rest).context = s.context := rfl
@[simp] theorem writeByte_busIndex (s : State) (i : ArrayIndex) (v : Byte) (a : Addr) : (s.writeByte i v).busIndex a = s.busIndex a := rfl
@[simp] theorem writeByte_context (s : State) (i : ArrayIndex) (v : Byte) : (s.writeByte i v).context = s.context := rfl
@[simp] theorem eraseBytes_busIndex (s : State) (start n : Nat) (a : Addr) : (s.eraseBytes start n).busIndex a = s.busIndex a := rfl
@[simp] theorem eraseBytes_context (s : State) (start n : Nat) : (s.eraseBytes start n).context = s.context := rfl

@[simp] theorem context_capacity (s : State) : s.context.capacity = s.capacity := rfl
@[simp] theorem context_identificationMode (s : State) : s.context.identificationMode = s.identificationMode := rfl
@[simp] theorem context_writeArmed (s : State) : s.context.writeArmed = s.writeArmed := rfl
@[simp] theorem context_bankSelectArmed (s : State) : s.context.bankSelectArmed = s.bankSelectArmed := rfl

/-! ### `State.constructed` -/

@[simp] theorem constructed_capacity (c : Capacity) (b : Bool) (u : Unspecified) :
    (State.constructed c b u).capacity = c := rfl
@[simp] theorem constructed_strictUnlock (c : Capacity) (b : Bool) (u : Unspecified) :
    (State.constructed c b u).strictUnlock = b := rfl
@[simp] theorem constructed_isReset (c : Capacity) (b : Bool) (u : Unspecified) :
    (State.constructed c b u).isReset = false := rfl
@[simp] theorem constructed_phase (c : Capacity) (b : Bool) (u : Unspecified) :
    (State.constructed c b u).phase = u.phase := rfl
@[simp] theorem constructed_eraseArmed (c : Capacity) (b : Bool) (u : Unspecified) :
    (State.constructed c b u).eraseArmed = u.eraseArmed := rfl
@[simp] theorem constructed_writeArmed (c : Capacity) (b : Bool) (u : Unspecified) :
    (State.constructed c b u).writeArmed = u.writeArmed := rfl
@[simp] theorem constructed_bankSelectArmed (c : Capacity) (b : Bool) (u : Unspecified) :
    (State.constructed c b u).bankSelectArmed = u.bankSelectArmed := rfl
@[simp] theorem constructed_identificationMode (c : Capacity) (b : Bool) (u : Unspecified) :
    (State.constructed c b u).identificationMode = u.identificationMode := rfl
@[simp] theorem constructed_currentBank (c : Capacity) (b : Bool) (u : Unspecified) :
    (State.constructed c b u).currentBank = u.currentBank := rfl
@[simp] theorem constructed_banks (c : Capacity) (b : Bool) (u : Unspecified) :
    (State.constructed c b u).banks = u.banks := rfl
@[simp] theorem constructed_requests (c : Capacity) (b : Bool) (u : Unspecified) :
    (State.constructed c b u).requests = [] := rfl
@[simp] theorem constructed_dataOut (c : Capacity) (b : Bool) (u : Unspecified) :
    (State.constructed c b u).dataOut = none := rfl

end Sys2Proof.Laws
end

