-- ==== Sys2Proof/Laws/Ops.lean ====
section
/-! SUPPORT. What the shared conditions can do, and when each meaning answers a next state, once each. -/

namespace Sys2Proof.Laws

open Sys2Proof Sys2Proof.Machine

/-! ### The shared conditions -/

theorem next_eq_next {s t : State} : (Host.Outcome.next s : Result) = .next t ↔ t = s := by
  constructor
  · intro h; cases h; rfl
  · rintro rfl; rfl

theorem whenSelected_eq_next {s t : State} {b : Bool} {e : Result} :
    whenSelected s b e = .next t ↔ s.isReset = true ∧ b = true ∧ e = .next t := by
  unfold whenSelected
  cases s.isReset <;> cases b <;> simp

theorem inCurrentBank_eq_next {s t : State} {e : Result} :
    inCurrentBank s e = .next t ↔ s.currentBank.toNat < s.capacity.numBanks ∧ e = .next t := by
  unfold inCurrentBank
  split <;> simp [*]

theorem inImage_eq_next {s t : State} {i : ArrayIndex} {e : Result} :
    inImage s i e = .next t ↔ i.toNat < s.capacity.bytes ∧ e = .next t := by
  unfold inImage
  split <;> simp [*]

theorem whenSelected_next {s t u : State} {b : Bool} :
    whenSelected s b (.next u) = .next t ↔ s.isReset = true ∧ b = true ∧ t = u := by
  rw [whenSelected_eq_next, next_eq_next]

theorem whenSelected_inCurrentBank_next {s t u : State} {b : Bool} :
    whenSelected s b (inCurrentBank s (.next u)) = .next t ↔
      s.isReset = true ∧ b = true ∧ s.currentBank.toNat < s.capacity.numBanks ∧ t = u := by
  rw [whenSelected_eq_next, inCurrentBank_eq_next, next_eq_next]

theorem whenSelected_inImage_next {s t u : State} {b : Bool} {i : ArrayIndex} :
    whenSelected s b (inImage s i (.next u)) = .next t ↔
      s.isReset = true ∧ b = true ∧ i.toNat < s.capacity.bytes ∧ t = u := by
  rw [whenSelected_eq_next, inImage_eq_next, next_eq_next]

theorem whenSelected_eq_fault {s : State} {b : Bool} {e : Result} {f : Fault} :
    whenSelected s b e = .fault f ↔ s.isReset = true ∧ b = true ∧ e = .fault f := by
  unfold whenSelected
  cases s.isReset <;> cases b <;> simp

theorem inCurrentBank_eq_fault {s : State} {e : Result} {f : Fault} :
    inCurrentBank s e = .fault f ↔
      (¬ s.currentBank.toNat < s.capacity.numBanks ∧ f = .noSuchBank) ∨
      (s.currentBank.toNat < s.capacity.numBanks ∧ e = .fault f) := by
  unfold inCurrentBank
  split <;> simp [*]

/-- Before the first RESET no row but RESET's runs (R254). -/
theorem whenSelected_of_unreset {s : State} (h : s.isReset = false) (b : Bool) (e : Result) :
    whenSelected s b e = .refused .beforeFirstReset := by
  simp [whenSelected, h]

/-! ### When each meaning answers a next state, and which -/

theorem exec_readId_next {s t : State} {a : Addr} :
    exec (.readId a) s = .next t ↔ s.isReset = true ∧ (s.identificationMode = true ∧ isIdOffset a = true) ∧
      t = s.answer (identifierByte s.capacity (idByte a)) := by
  simp [exec, execReadId, whenSelected_next]

theorem exec_readArray_next {s t : State} {a : Addr} :
    exec (.readArray a) s = .next t ↔ s.isReset = true ∧ (s.identificationMode && isIdOffset a) = false ∧
      s.currentBank.toNat < s.capacity.numBanks ∧ t = s.answer (s.byteAt (s.busIndex a)) := by
  cases hm : s.identificationMode <;> cases hi : isIdOffset a <;>
    simp [exec, execReadArray, whenSelected_inCurrentBank_next, hm, hi]

theorem exec_unlock1_next {s t : State} :
    exec .unlock1 s = .next t ↔ s.isReset = true ∧ s.phase = .idle ∧ t = s.setPhase .unlock1 := by
  simp [exec, execUnlock1, whenSelected_next]

theorem exec_idleIgnore_next {s t : State} {a : Addr} {v : Byte} :
    exec (.idleIgnore a v) s = .next t ↔
      s.isReset = true ∧ (s.phase = .idle ∧ isUnlockWrite1 a v = false) ∧ t = s := by
  simp [exec, execIdleIgnore, whenSelected_next]

theorem exec_unlock2_next {s t : State} :
    exec .unlock2 s = .next t ↔ s.isReset = true ∧ s.phase = .unlock1 ∧ t = s.setPhase .commandReady := by
  simp [exec, execUnlock2, whenSelected_next]

theorem exec_unlock1Ignore_next {s t : State} {a : Addr} {v : Byte} :
    exec (.unlock1Ignore a v) s = .next t ↔
      s.isReset = true ∧ (s.phase = .unlock1 ∧ isUnlockWrite2 a v = false) ∧
      ((s.strictUnlock = true ∧ t = s.setPhase .idle) ∨ (s.strictUnlock = false ∧ t = s)) := by
  simp only [exec, execUnlock1Ignore, whenSelected_next]
  cases s.strictUnlock <;> simp [State.setPhase]

theorem exec_cmdReadChipId_next {s t : State} :
    exec .cmdReadChipId s = .next t ↔
      s.isReset = true ∧ s.phase = .commandReady ∧ t = (s.setIdentificationMode true).setPhase .idle := by
  simp [exec, execCmdReadChipId, whenSelected_next]

theorem exec_cmdFinishChipId_next {s t : State} :
    exec .cmdFinishChipId s = .next t ↔
      s.isReset = true ∧ s.phase = .commandReady ∧ t = (s.setIdentificationMode false).setPhase .idle := by
  simp [exec, execCmdFinishChipId, whenSelected_next]

theorem exec_cmdErase_next {s t : State} :
    exec .cmdErase s = .next t ↔
      s.isReset = true ∧ s.phase = .commandReady ∧ t = (s.setEraseArmed true).setPhase .idle := by
  simp [exec, execCmdErase, whenSelected_next]

theorem exec_cmdEraseChip_next {s t : State} :
    exec .cmdEraseChip s = .next t ↔
      s.isReset = true ∧ s.phase = .commandReady ∧
      ((s.eraseArmed = true ∧ t = ((s.eraseBytes 0 s.capacity.bytes).setEraseArmed false).setPhase .idle) ∨
       (s.eraseArmed = false ∧ t = s.setPhase .idle)) := by
  simp only [exec, execCmdEraseChip, whenSelected_eq_next, beq_iff_eq]
  cases s.eraseArmed <;> simp [next_eq_next, -Host.Outcome.next.injEq]

theorem exec_cmdWriteByte_next {s t : State} :
    exec .cmdWriteByte s = .next t ↔
      s.isReset = true ∧ s.phase = .commandReady ∧ t = (s.setWriteArmed true).setPhase .extended := by
  simp [exec, execCmdWriteByte, whenSelected_next]

theorem exec_cmdSelectBank_next {s t : State} :
    exec .cmdSelectBank s = .next t ↔
      s.isReset = true ∧ (s.phase = .commandReady ∧ s.capacity = .large) ∧
      t = (s.setBankSelectArmed true).setPhase .extended := by
  simp [exec, execCmdSelectBank, whenSelected_next]

theorem exec_cmdSelectBankIgnored_next {s t : State} :
    exec .cmdSelectBankIgnored s = .next t ↔
      s.isReset = true ∧ (s.phase = .commandReady ∧ s.capacity = .small) ∧ t = s.setPhase .idle := by
  simp [exec, execCmdSelectBankIgnored, whenSelected_next]

theorem exec_cmdUnknown_next {s t : State} {v : Byte} :
    exec (.cmdUnknown v) s = .next t ↔
      s.isReset = true ∧ (s.phase = .commandReady ∧ isCommandCode v = false) ∧ t = s.setPhase .idle := by
  simp [exec, execCmdUnknown, whenSelected_next]

theorem exec_cmdEraseSector_next {s t : State} {n : BitVec 4} :
    exec (.cmdEraseSector n) s = .next t ↔
      s.isReset = true ∧ s.phase = .commandReady ∧
      ((s.eraseArmed = true ∧ s.currentBank.toNat < s.capacity.numBanks ∧
        t = ((s.eraseBytes (sectorIndex s.currentBank n).toNat sectorSize).setEraseArmed false).setPhase .idle) ∨
       (s.eraseArmed = false ∧ t = s.setPhase .idle)) := by
  simp only [exec, execCmdEraseSector, whenSelected_eq_next, beq_iff_eq]
  cases s.eraseArmed <;> simp [inCurrentBank_eq_next, next_eq_next, -Host.Outcome.next.injEq]

theorem exec_cmdDiscard_next {s t : State} {a : Addr} {v : Byte} :
    exec (.cmdDiscard a v) s = .next t ↔
      s.isReset = true ∧ (s.phase = .commandReady ∧ a ≠ cmdAddr ∧ isSectorEraseWrite a v = false) ∧
      t = s.setPhase .idle := by
  simp [exec, execCmdDiscard, whenSelected_next, and_assoc]

theorem exec_extProgram_next {s t : State} {a : Addr} {v : Byte} :
    exec (.extProgram a v) s = .next t ↔
      s.isReset = true ∧ (s.phase = .extended ∧ s.writeArmed = true) ∧
      s.currentBank.toNat < s.capacity.numBanks ∧
      t = ((s.writeByte (s.busIndex a) v).setWriteArmed false).setPhase .idle := by
  simp [exec, execExtProgram, whenSelected_inCurrentBank_next]

theorem exec_extSelectBank_next {s t : State} {v : Byte} :
    exec (.extSelectBank v) s = .next t ↔
      s.isReset = true ∧ (s.phase = .extended ∧ s.writeArmed = false ∧ s.bankSelectArmed = true) ∧
      t = ((s.setCurrentBank (if s.capacity = .large then bankBit v else s.currentBank)).setBankSelectArmed
        false).setPhase .idle := by
  simp [exec, execExtSelectBank, whenSelected_next, and_assoc]

theorem exec_extDiscard_next {s t : State} {a : Addr} {v : Byte} :
    exec (.extDiscard a v) s = .next t ↔
      s.isReset = true ∧ (s.phase = .extended ∧ s.writeArmed = false ∧
        (s.bankSelectArmed && a == bankSelectAddr) = false) ∧ t = s.setPhase .idle := by
  cases hb : s.bankSelectArmed <;> simp [exec, execExtDiscard, whenSelected_next, hb, and_assoc]

theorem exec_reset_next {s t : State} : exec .reset s = .next t ↔ t = s.applyReset := by
  simp only [exec, execReset, next_eq_next]

theorem exec_rawRead_next {s t : State} {i : ArrayIndex} :
    exec (.rawRead i) s = .next t ↔ s.isReset = true ∧ i.toNat < s.capacity.bytes ∧ t = s.answer (s.byteAt i) := by
  simp [exec, execRawRead, whenSelected_inImage_next]

theorem exec_rawWrite_next {s t : State} {i : ArrayIndex} {v : Byte} :
    exec (.rawWrite i v) s = .next t ↔ s.isReset = true ∧ i.toNat < s.capacity.bytes ∧ t = s.writeByte i v := by
  simp [exec, execRawWrite, whenSelected_inImage_next]

/-- Before the first RESET every row but RESET's is refused (R254). -/
theorem exec_of_unreset {s : State} (h : s.isReset = false) {i : Instr} (hi : i ≠ .reset) :
    exec i s = .refused .beforeFirstReset := by
  cases i <;> first | exact absurd rfl hi | exact whenSelected_of_unreset h _ _

/-- The only fault a meaning raises, and where (log 9). -/
theorem exec_eq_fault {s : State} {i : Instr} {f : Fault} (h : exec i s = .fault f) :
    ¬ s.currentBank.toNat < s.capacity.numBanks := by
  cases i <;>
    simp [exec, execReadId, execReadArray, execUnlock1, execIdleIgnore, execUnlock2, execUnlock1Ignore,
      execCmdReadChipId, execCmdFinishChipId, execCmdErase, execCmdEraseChip, execCmdWriteByte, execCmdSelectBank,
      execCmdSelectBankIgnored, execCmdUnknown, execCmdEraseSector, execCmdDiscard, execExtProgram,
      execExtSelectBank, execExtDiscard, execReset, execRawRead, execRawWrite, inImage, whenSelected_eq_fault,
      inCurrentBank_eq_fault] at h
  case readArray => omega
  case cmdEraseChip =>
    obtain ⟨-, -, h⟩ := h
    split at h <;> simp at h
  case cmdEraseSector =>
    obtain ⟨-, -, h⟩ := h
    split at h
    · simp [inCurrentBank_eq_fault] at h; omega
    · simp at h
  case extProgram => omega
  all_goals (obtain ⟨-, h⟩ := h; split at h <;> simp at h)

end Sys2Proof.Laws
end

