-- ==== Sys2Proof/Laws/PerInstr.lean ====
section
/-! SUPPORT. Statements made for every instruction, one lemma per constructor. -/

namespace Sys2Proof.Laws.EncodesATransaction

open Sys2Proof Sys2Proof.Machine

/-- The key of an instruction has one of the five transaction kinds (30_encoding.md R81, R88). -/
def Statement (i : Instr) : Prop := ∀ p : Phase, (keyKind (encode p i)).toNat ≤ 4

theorem of_makeKey {k : BitVec 3} (h : k.toNat ≤ 4) (p : Phase) (a : Addr) (v : Byte) :
    (keyKind (makeKey k p a v)).toNat ≤ 4 := by
  rwa [Sys2Proof.Laws.keyKind_makeKey]

theorem readId (addr : Addr) : Statement (.readId addr) := fun _ => of_makeKey (by decide) ..
theorem readArray (addr : Addr) : Statement (.readArray addr) := fun _ => of_makeKey (by decide) ..
theorem unlock1 : Statement .unlock1 := fun _ => of_makeKey (by decide) ..
theorem idleIgnore (addr : Addr) (value : Byte) : Statement (.idleIgnore addr value) := fun _ => of_makeKey (by decide) ..
theorem unlock2 : Statement .unlock2 := fun _ => of_makeKey (by decide) ..
theorem unlock1Ignore (addr : Addr) (value : Byte) : Statement (.unlock1Ignore addr value) := fun _ => of_makeKey (by decide) ..
theorem cmdReadChipId : Statement .cmdReadChipId := fun _ => of_makeKey (by decide) ..
theorem cmdFinishChipId : Statement .cmdFinishChipId := fun _ => of_makeKey (by decide) ..
theorem cmdErase : Statement .cmdErase := fun _ => of_makeKey (by decide) ..
theorem cmdEraseChip : Statement .cmdEraseChip := fun _ => of_makeKey (by decide) ..
theorem cmdWriteByte : Statement .cmdWriteByte := fun _ => of_makeKey (by decide) ..
theorem cmdSelectBank : Statement .cmdSelectBank := fun _ => of_makeKey (by decide) ..
theorem cmdSelectBankIgnored : Statement .cmdSelectBankIgnored := fun _ => of_makeKey (by decide) ..
theorem cmdUnknown (value : Byte) : Statement (.cmdUnknown value) := fun _ => of_makeKey (by decide) ..
theorem cmdEraseSector (sector : BitVec 4) : Statement (.cmdEraseSector sector) := fun _ => of_makeKey (by decide) ..
theorem cmdDiscard (addr : Addr) (value : Byte) : Statement (.cmdDiscard addr value) := fun _ => of_makeKey (by decide) ..
theorem extProgram (addr : Addr) (value : Byte) : Statement (.extProgram addr value) := fun _ => of_makeKey (by decide) ..
theorem extSelectBank (value : Byte) : Statement (.extSelectBank value) := fun _ => of_makeKey (by decide) ..
theorem extDiscard (addr : Addr) (value : Byte) : Statement (.extDiscard addr value) := fun _ => of_makeKey (by decide) ..
theorem reset : Statement .reset := fun _ => of_makeKey (by decide) ..
theorem rawRead (index : ArrayIndex) : Statement (.rawRead index) := fun _ => of_makeKey (by decide) ..
theorem rawWrite (index : ArrayIndex) (value : Byte) : Statement (.rawWrite index value) := fun _ => of_makeKey (by decide) ..

end Sys2Proof.Laws.EncodesATransaction
end

