-- ==== Sys2Proof/Laws/Step.lean ====
section
/-! SUPPORT. What one step can do: the row a state selects for a request, the step that runs it, and the first
step of a run. -/

namespace Sys2Proof.Laws

open Sys2Proof Sys2Proof.Machine

/-! ### Selecting a row -/

theorem select_eq (s : State) (r : Request) :
    s.select r = decode s.context (makeKey r.kind s.phase r.address r.value) := rfl

theorem request_eq_write {r : Request} (h : r.kind = kindWrite) : r = .write r.address r.value := by
  cases r; simp only at h; subst h; rfl

/-- What a selected row says of the state and the request (R86 with the operand lists of the rules). -/
def rowFacts (s : State) (r : Request) : Instr → Prop
  | .readId a => r.kind = kindRead ∧ r.address = a ∧ s.identificationMode = true ∧ isIdOffset a = true
  | .readArray a => r.kind = kindRead ∧ r.address = a ∧ (s.identificationMode && isIdOffset a) = false
  | .unlock1 => s.phase = .idle ∧ r = .write unlockAddr1 unlockData1
  | .idleIgnore a v => s.phase = .idle ∧ r = .write a v ∧ isUnlockWrite1 a v = false
  | .unlock2 => s.phase = .unlock1 ∧ r = .write unlockAddr2 unlockData2
  | .unlock1Ignore a v => s.phase = .unlock1 ∧ r = .write a v ∧ isUnlockWrite2 a v = false
  | .cmdReadChipId => s.phase = .commandReady ∧ r = .write cmdAddr codeReadChipId
  | .cmdFinishChipId => s.phase = .commandReady ∧ r = .write cmdAddr codeFinishChipId
  | .cmdErase => s.phase = .commandReady ∧ r = .write cmdAddr codeErase
  | .cmdEraseChip => s.phase = .commandReady ∧ r = .write cmdAddr codeEraseChip
  | .cmdWriteByte => s.phase = .commandReady ∧ r = .write cmdAddr codeWriteByte
  | .cmdSelectBank => s.phase = .commandReady ∧ r = .write cmdAddr codeSelectBank ∧ s.capacity = .large
  | .cmdSelectBankIgnored => s.phase = .commandReady ∧ r = .write cmdAddr codeSelectBank ∧ s.capacity = .small
  | .cmdUnknown v => s.phase = .commandReady ∧ r = .write cmdAddr v ∧ isCommandCode v = false
  | .cmdEraseSector n => s.phase = .commandReady ∧ r = .write (sectorAddr n) sectorEraseData
  | .cmdDiscard a v => s.phase = .commandReady ∧ r = .write a v ∧ a ≠ cmdAddr ∧ isSectorEraseWrite a v = false
  | .extProgram a v => s.phase = .extended ∧ r = .write a v ∧ s.writeArmed = true
  | .extSelectBank v =>
      s.phase = .extended ∧ r = .write bankSelectAddr v ∧ s.writeArmed = false ∧ s.bankSelectArmed = true
  | .extDiscard a v => s.phase = .extended ∧ r = .write a v ∧ s.writeArmed = false ∧
      (s.bankSelectArmed && a == bankSelectAddr) = false
  | .reset => r.kind = kindReset
  | .rawRead i => r.kind = kindRawRead ∧ r.address = i.setWidth 32 ∧ i.toNat < s.capacity.bytes
  | .rawWrite i v => r.kind = kindRawWrite ∧ r.address = i.setWidth 32 ∧ r.value = v ∧ i.toNat < s.capacity.bytes

theorem isUnlockWrite1_iff {a : Addr} {v : Byte} : isUnlockWrite1 a v = true ↔ a = unlockAddr1 ∧ v = unlockData1 := by
  simp [isUnlockWrite1]

theorem isUnlockWrite2_iff {a : Addr} {v : Byte} : isUnlockWrite2 a v = true ↔ a = unlockAddr2 ∧ v = unlockData2 := by
  simp [isUnlockWrite2]

theorem isSectorEraseWrite_iff {a : Addr} {v : Byte} :
    isSectorEraseWrite a v = true ↔ a = sectorAddr (sectorOf a) ∧ v = sectorEraseData := by
  simp [isSectorEraseWrite, sectorMatch_iff]

/-- The row a state selects for a Write, by phase. -/
theorem rowFacts_of_select_write {s : State} {a : Addr} {v : Byte} {i : Instr}
    (h : s.select (.write a v) = .ok i) : rowFacts s (.write a v) i := by
  change decode s.context (makeKey kindWrite s.phase a v) = .ok i at h
  cases hp : s.phase <;> rw [hp] at h
  · rw [decode_write_idle] at h
    split at h <;> cases h
    · obtain ⟨rfl, rfl⟩ := isUnlockWrite1_iff.1 ‹_›; exact ⟨hp, rfl⟩
    · exact ⟨hp, rfl, Bool.eq_false_of_not_eq_true ‹_›⟩
  · rw [decode_write_unlock1] at h
    split at h <;> cases h
    · obtain ⟨rfl, rfl⟩ := isUnlockWrite2_iff.1 ‹_›; exact ⟨hp, rfl⟩
    · exact ⟨hp, rfl, Bool.eq_false_of_not_eq_true ‹_›⟩
  · rw [decode_write_commandReady] at h
    split at h
    · subst a
      by_cases h1 : v = codeReadChipId
      · subst h1; rw [if_pos rfl] at h; cases h; exact ⟨hp, rfl⟩
      by_cases h2 : v = codeFinishChipId
      · subst h2; rw [if_neg h1, if_pos rfl] at h; cases h; exact ⟨hp, rfl⟩
      by_cases h3 : v = codeErase
      · subst h3; rw [if_neg h1, if_neg h2, if_pos rfl] at h; cases h; exact ⟨hp, rfl⟩
      by_cases h4 : v = codeEraseChip
      · subst h4; rw [if_neg h1, if_neg h2, if_neg h3, if_pos rfl] at h; cases h; exact ⟨hp, rfl⟩
      by_cases h5 : v = codeWriteByte
      · subst h5; rw [if_neg h1, if_neg h2, if_neg h3, if_neg h4, if_pos rfl] at h; cases h; exact ⟨hp, rfl⟩
      by_cases h6 : v = codeSelectBank
      · subst h6
        rw [if_neg h1, if_neg h2, if_neg h3, if_neg h4, if_neg h5, if_pos rfl, context_capacity] at h
        cases hc : s.capacity <;> rw [hc] at h <;> cases h <;> exact ⟨hp, rfl, hc⟩
      · rw [if_neg h1, if_neg h2, if_neg h3, if_neg h4, if_neg h5, if_neg h6] at h
        cases h
        exact ⟨hp, rfl, by simp [isCommandCode, h1, h2, h3, h4, h5, h6]⟩
    · rename_i ha
      split at h <;> cases h
      · obtain ⟨ha', rfl⟩ := isSectorEraseWrite_iff.1 ‹_›
        exact ⟨hp, by rw [← ha']⟩
      · exact ⟨hp, rfl, ha, Bool.eq_false_of_not_eq_true ‹_›⟩
  · rw [decode_write_extended, context_writeArmed, context_bankSelectArmed] at h
    split at h
    · cases h; exact ⟨hp, rfl, ‹_›⟩
    · rename_i hw
      split at h <;> cases h
      · rename_i hb
        simp only [Bool.and_eq_true, beq_iff_eq] at hb
        obtain ⟨hb, rfl⟩ := hb
        exact ⟨hp, rfl, by simpa using hw, hb⟩
      · exact ⟨hp, rfl, by simpa using hw, Bool.eq_false_of_not_eq_true ‹_›⟩

/-- The row a state selects for a request. -/
theorem rowFacts_of_select {s : State} {r : Request} {i : Instr} (h : s.select r = .ok i) : rowFacts s r i := by
  have kinds : ∀ k : BitVec 3, k = kindRead ∨ k = kindWrite ∨ k = kindReset ∨ k = kindRawRead ∨
      k = kindRawWrite ∨ 4 < k.toNat := by decide
  rcases kinds r.kind with hk | hk | hk | hk | hk | hk
  · rw [select_eq, hk, decode_read, context_identificationMode] at h
    split at h <;> cases h
    · rename_i hm
      simp only [Bool.and_eq_true] at hm
      exact ⟨hk, rfl, hm⟩
    · exact ⟨hk, rfl, Bool.eq_false_of_not_eq_true ‹_›⟩
  · rw [request_eq_write hk] at h ⊢
    exact rowFacts_of_select_write h
  · rw [select_eq, hk, decode_reset] at h
    cases h
    exact hk
  · rw [select_eq, hk, decode_rawRead, context_capacity] at h
    split at h <;> cases h
    rename_i ha
    have := setWidth_extractIndex _ _ ha
    exact ⟨hk, this.symm, by rw [← toNat_setWidth_index, this]; exact ha⟩
  · rw [select_eq, hk, decode_rawWrite, context_capacity] at h
    split at h <;> cases h
    rename_i ha
    have := setWidth_extractIndex _ _ ha
    exact ⟨hk, this.symm, rfl, by rw [← toNat_setWidth_index, this]; exact ha⟩
  · rw [select_eq, decode_otherKind _ _ _ _ _ hk] at h
    cases h

/-- The facts of a row fix the row: a request selects exactly the row whose facts hold. -/
theorem select_of_rowFacts {s : State} {r : Request} {i : Instr} (h : rowFacts s r i) : s.select r = .ok i := by
  cases i with
  | readId a =>
    obtain ⟨hk, rfl, hm, hi⟩ := h
    rw [select_eq, hk, decode_read, context_identificationMode, hm, hi]; rfl
  | readArray a =>
    obtain ⟨hk, rfl, hm⟩ := h
    rw [select_eq, hk, decode_read, context_identificationMode, hm]; rfl
  | unlock1 =>
    obtain ⟨hp, rfl⟩ := h
    simp only [select_eq, Request.write, hp]; rw [decode_write_idle]; rfl
  | idleIgnore a v =>
    obtain ⟨hp, rfl, hn⟩ := h
    simp only [select_eq, Request.write, hp]; rw [decode_write_idle, hn]; rfl
  | unlock2 =>
    obtain ⟨hp, rfl⟩ := h
    simp only [select_eq, Request.write, hp]; rw [decode_write_unlock1]; rfl
  | unlock1Ignore a v =>
    obtain ⟨hp, rfl, hn⟩ := h
    simp only [select_eq, Request.write, hp]; rw [decode_write_unlock1, hn]; rfl
  | cmdReadChipId =>
    obtain ⟨hp, rfl⟩ := h
    simp only [select_eq, Request.write, hp]; rw [decode_write_commandReady]; rfl
  | cmdFinishChipId =>
    obtain ⟨hp, rfl⟩ := h
    simp only [select_eq, Request.write, hp]; rw [decode_write_commandReady]; rfl
  | cmdErase =>
    obtain ⟨hp, rfl⟩ := h
    simp only [select_eq, Request.write, hp]; rw [decode_write_commandReady]; rfl
  | cmdEraseChip =>
    obtain ⟨hp, rfl⟩ := h
    simp only [select_eq, Request.write, hp]; rw [decode_write_commandReady]; rfl
  | cmdWriteByte =>
    obtain ⟨hp, rfl⟩ := h
    simp only [select_eq, Request.write, hp]; rw [decode_write_commandReady]; rfl
  | cmdSelectBank =>
    obtain ⟨hp, rfl, hc⟩ := h
    simp only [select_eq, Request.write, hp]; rw [decode_write_commandReady, context_capacity, hc]; rfl
  | cmdSelectBankIgnored =>
    obtain ⟨hp, rfl, hc⟩ := h
    simp only [select_eq, Request.write, hp]; rw [decode_write_commandReady, context_capacity, hc]; rfl
  | cmdUnknown v =>
    obtain ⟨hp, rfl, hv⟩ := h
    simp only [isCommandCode, Bool.or_eq_false_iff, beq_eq_false_iff_ne] at hv
    obtain ⟨⟨⟨⟨⟨h1, h2⟩, h3⟩, h4⟩, h5⟩, h6⟩ := hv
    simp only [select_eq, Request.write, hp]
    rw [decode_write_commandReady, if_pos rfl, if_neg h3, if_neg h6, if_neg h2, if_neg h1, if_neg h4, if_neg h5]
  | cmdEraseSector n =>
    obtain ⟨hp, rfl⟩ := h
    simp only [select_eq, Request.write, hp]
    rw [decode_write_commandReady, if_neg (sectorAddr_ne_cmdAddr n), if_pos (by simp [isSectorEraseWrite]),
      sectorOf_sectorAddr]
  | cmdDiscard a v =>
    obtain ⟨hp, rfl, ha, hs⟩ := h
    simp only [select_eq, Request.write, hp]; rw [decode_write_commandReady, if_neg ha, hs]; rfl
  | extProgram a v =>
    obtain ⟨hp, rfl, hw⟩ := h
    simp only [select_eq, Request.write, hp]; rw [decode_write_extended, context_writeArmed, hw]; rfl
  | extSelectBank v =>
    obtain ⟨hp, rfl, hw, hb⟩ := h
    simp only [select_eq, Request.write, hp]
    rw [decode_write_extended, context_writeArmed, context_bankSelectArmed, hw, hb]; rfl
  | extDiscard a v =>
    obtain ⟨hp, rfl, hw, hb⟩ := h
    simp only [select_eq, Request.write, hp]
    rw [decode_write_extended, context_writeArmed, context_bankSelectArmed, hw, hb]; rfl
  | reset => rw [select_eq, show r.kind = kindReset from h, decode_reset]
  | rawRead i =>
    obtain ⟨hk, ha, hi⟩ := h
    rw [select_eq, hk, ha, decode_rawRead, if_pos (by rw [toNat_setWidth_index]; exact hi), extractIndex_setWidth]
  | rawWrite i v =>
    obtain ⟨hk, ha, hv, hi⟩ := h
    rw [select_eq, hk, ha, hv, decode_rawWrite, if_pos (by rw [toNat_setWidth_index]; exact hi), extractIndex_setWidth]

theorem select_eq_ok_iff {s : State} {r : Request} {i : Instr} : s.select r = .ok i ↔ rowFacts s r i :=
  ⟨rowFacts_of_select, select_of_rowFacts⟩

/-- Consuming the request changes nothing a row's selection reads. -/
@[simp] theorem consume_select (s : State) (rest : List Request) (r : Request) :
    (s.consume rest).select r = s.select r := rfl

/-! ### The step -/

theorem step_of_requests {s : State} {r : Request} {rest : List Request} (h : s.requests = r :: rest) :
    step s = match s.select r with
      | .error e => .refused (DecodeError.refusal e)
      | .ok i => exec i (s.consume rest) := by
  cases hs : s.select r <;> simp only [step, State.nextRequest, h, consume_select, hs]

/-- A step runs the selected row on the state with the request consumed. -/
theorem step_of_rowFacts {s : State} {r : Request} {rest : List Request} {i : Instr} (h : s.requests = r :: rest)
    (hf : rowFacts s r i) : step s = exec i (s.consume rest) := by
  rw [step_of_requests h, select_of_rowFacts hf]

/-- What a step that answers a next state has done: the inversion lemma of the whole machine. -/
theorem step_eq_next {s t : State} :
    step s = .next t ↔
      ∃ r rest i, s.requests = r :: rest ∧ rowFacts s r i ∧ exec i (s.consume rest) = .next t := by
  constructor
  · intro h
    cases hr : s.requests with
    | nil => simp [step, State.nextRequest, hr] at h
    | cons r rest =>
      rw [step_of_requests hr] at h
      cases hs : s.select r with
      | error e => simp [hs] at h
      | ok i => exact ⟨r, rest, i, rfl, rowFacts_of_select hs, by simpa [hs] using h⟩
  · rintro ⟨r, rest, i, hr, hf, he⟩
    rw [step_of_rowFacts hr hf, he]

/-- A step that faults has run a meaning in a state without its bank (log 9). -/
theorem step_eq_fault {s : State} {f : Fault} (h : step s = .fault f) :
    ¬ s.currentBank.toNat < s.capacity.numBanks := by
  cases hr : s.requests with
  | nil => simp [step, State.nextRequest, hr] at h
  | cons r rest =>
    rw [step_of_requests hr] at h
    cases hs : s.select r with
    | error e => simp [hs] at h
    | ok i =>
      simp only [hs] at h
      exact exec_eq_fault (s := s.consume rest) h

/-! ### Runs -/

theorem run_zero (s : State) : Sys2Proof.core.run 0 s = .next s := rfl

theorem run_succ (k : Nat) (s : State) :
    Sys2Proof.core.run (k + 1) s = match step s with
      | .next t => Sys2Proof.core.run k t
      | .fault f => .fault f
      | .refused f => .refused f := by
  simp only [Host.Core.run, show Sys2Proof.core.step = step from rfl]
  cases step s <;> rfl

/-- A run whose first step is known. -/
theorem run_succ_of_next {k : Nat} {s t : State} (h : step s = .next t) :
    Sys2Proof.core.run (k + 1) s = Sys2Proof.core.run k t := by
  rw [run_succ, h]

end Sys2Proof.Laws
end

