-- ==== Sys2Proof/Tests/Slice0.lean ====
section
/-! SUPPORT. The model's own tests: ill-formed terms, decoding of words written out from the spec, single steps from
95_test_vectors.md, and a witness for the hypotheses of each obligation. -/

namespace Sys2Proof.Tests

open Sys2Proof Sys2Proof.Machine

/-! ### Well-formedness refuses each ill-formed term (30_encoding.md R82, R86) -/

/-- READ_ID at offset 2. -/
theorem test_wf_readId_refuses : (Instr.readId 0x0E000002#32).wellFormed = false := by decide
/-- IDLE_IGNORE holding the first unlock write. -/
theorem test_wf_idleIgnore_refuses : (Instr.idleIgnore 0x0E005555#32 0xAA#8).wellFormed = false := by decide
/-- UNLOCK1_IGNORE holding the second unlock write. -/
theorem test_wf_unlock1Ignore_refuses : (Instr.unlock1Ignore 0x0E002AAA#32 0x55#8).wellFormed = false := by decide
/-- CMD_UNKNOWN holding a value of the command table: each of the six. -/
theorem test_wf_cmdUnknown_refuses :
    ∀ v ∈ [0x10#8, 0x80#8, 0x90#8, 0xA0#8, 0xB0#8, 0xF0#8], (Instr.cmdUnknown v).wellFormed = false := by decide
/-- CMD_DISCARD at `CMD_ADDR`. -/
theorem test_wf_cmdDiscard_refuses_cmdAddr : (Instr.cmdDiscard 0x0E005555#32 0x00#8).wellFormed = false := by decide
/-- CMD_DISCARD holding a sector erase. -/
theorem test_wf_cmdDiscard_refuses_sector : (Instr.cmdDiscard 0x0E00F000#32 0x30#8).wellFormed = false := by decide

/-! ### Decoding: one word a row, from the programs of 95_test_vectors.md or the fields of R81 -/

/-- The context of a device with every flag false. -/
def plain (c : Capacity) : DecodeContext := ⟨c, false, false, false⟩

/-- What is decoded, where something is. -/
def decoded (ctx : DecodeContext) (key : Key) : Option Instr :=
  match decode ctx key with
  | .ok i => some i
  | .error _ => none

/-- P1, sixth line. -/
theorem test_decode_readId : decoded ⟨.large, true, false, false⟩ 0x000E00000100#45 =
    some (.readId 0x0E000001#32) := by decide
/-- P4, fourth line: a Read in Extended. -/
theorem test_decode_readArray : decoded (plain .small) 0x030E00FFFF00#45 = some (.readArray 0x0E00FFFF#32) := by decide
/-- P1, second line. -/
theorem test_decode_unlock1 : decoded (plain .large) 0x040E005555AA#45 = some .unlock1 := by decide
/-- P6, fifth line. -/
theorem test_decode_idleIgnore : decoded (plain .small) 0x040E002AAA55#45 =
    some (.idleIgnore 0x0E002AAA#32 0x55#8) := by decide
/-- P1, third line. -/
theorem test_decode_unlock2 : decoded (plain .large) 0x050E002AAA55#45 = some .unlock2 := by decide
/-- V40-11: kind 001, phase 01, address 0x0E012AAA, value 0x55. -/
theorem test_decode_unlock1Ignore : decoded (plain .small) (0b001#3 ++ 0b01#2 ++ 0x0E012AAA#32 ++ 0x55#8) =
    some (.unlock1Ignore 0x0E012AAA#32 0x55#8) := by decide
/-- P1, fourth line. -/
theorem test_decode_cmdReadChipId : decoded (plain .large) 0x060E00555590#45 = some .cmdReadChipId := by decide
/-- P1, tenth line. -/
theorem test_decode_cmdFinishChipId : decoded (plain .large) 0x060E005555F0#45 = some .cmdFinishChipId := by decide
/-- P3, eleventh line. -/
theorem test_decode_cmdErase : decoded (plain .small) 0x060E00555580#45 = some .cmdErase := by decide
/-- P3, the chip erase. -/
theorem test_decode_cmdEraseChip : decoded (plain .small) 0x060E00555510#45 = some .cmdEraseChip := by decide
/-- P2, third line. -/
theorem test_decode_cmdWriteByte : decoded (plain .large) 0x060E005555A0#45 = some .cmdWriteByte := by decide
/-- P2, seventh line. -/
theorem test_decode_cmdSelectBank : decoded (plain .large) 0x060E005555B0#45 = some .cmdSelectBank := by decide
/-- V41-8: the same key on a Small device. -/
theorem test_decode_cmdSelectBankIgnored : decoded (plain .small) 0x060E005555B0#45 =
    some .cmdSelectBankIgnored := by decide
/-- V41-10: 0x30 at `CMD_ADDR` is no sector erase. -/
theorem test_decode_cmdUnknown : decoded (plain .small) 0x060E00555530#45 = some (.cmdUnknown 0x30#8) := by decide
/-- P3, the second sector erase, and the last sector (V41-12). -/
theorem test_decode_cmdEraseSector : decoded (plain .small) 0x060E00400030#45 = some (.cmdEraseSector 4#4) ∧
    decoded (plain .large) 0x060E00F00030#45 = some (.cmdEraseSector 15#4) := by decide
/-- V41-14: kind 001, phase 10, address 0x0E001001, value 0x30. -/
theorem test_decode_cmdDiscard : decoded (plain .small) (0b001#3 ++ 0b10#2 ++ 0x0E001001#32 ++ 0x30#8) =
    some (.cmdDiscard 0x0E001001#32 0x30#8) := by decide
/-- P2, fourth line; and at `BANK_SELECT_ADDR` with both arms set (V42-8, R174). -/
theorem test_decode_extProgram : decoded ⟨.large, false, true, false⟩ 0x070E0000105A#45 =
      some (.extProgram 0x0E000010#32 0x5A#8) ∧
    decoded ⟨.large, false, true, true⟩ 0x070E00000001#45 = some (.extProgram 0x0E000000#32 0x01#8) := by decide
/-- P2, eighth line. -/
theorem test_decode_extSelectBank : decoded ⟨.large, false, false, true⟩ 0x070E00000001#45 =
    some (.extSelectBank 0x01#8) := by decide
/-- V42-7: a payload at a wrong address. -/
theorem test_decode_extDiscard : decoded ⟨.large, false, false, true⟩ 0x070E00000101#45 =
    some (.extDiscard 0x0E000001#32 0x01#8) := by decide
/-- R81: kind 010, address and value 0, in phase Extended. -/
theorem test_decode_reset : decoded (plain .large) 0x0B0000000000#45 = some .reset := by decide
/-- V44-1, and the highest index of a Large device. -/
theorem test_decode_rawRead : decoded (plain .large) 0x0C0001001000#45 = some (.rawRead 0x10010#17) ∧
    decoded (plain .large) 0x0C0001FFFF00#45 = some (.rawRead 0x1FFFF#17) := by decide
/-- V44-4, and the highest index of a Small device. -/
theorem test_decode_rawWrite : decoded (plain .small) 0x100000010042#45 = some (.rawWrite 0x00100#17 0x42#8) ∧
    decoded (plain .small) 0x100000FFFF42#45 = some (.rawWrite 0x0FFFF#17 0x42#8) := by decide
/-- V44-6, V44-7 and R88: indices out of range and the unused kinds. -/
theorem test_decode_refuses : decoded (plain .small) 0x0C0001000000#45 = none ∧
    decoded (plain .large) 0x100002000000#45 = none ∧ decoded (plain .large) 0x140000000000#45 = none ∧
    decoded (plain .large) 0x1FFFFFFFFFFF#45 = none := by decide

/-! ### The host's table words -/

theorem test_tableWord_unlock1 : decodeTableWord 48 0x040E005555AA = some .unlock1 := by decide
theorem test_tableWord_eraseSector : decodeTableWord 48 0x060E00000030 = some (.cmdEraseSector 0#4) := by decide
theorem test_tableWord_selectBankPayload : decodeTableWord 48 0x070E00000000 = some (.extSelectBank 0#8) := by decide
/-- Bits above the key's 45 are no key, and a word is read to its `nbits` only. -/
theorem test_tableWord_width : decodeTableWord 48 0x840E005555AA = none ∧
    decodeTableWord 48 0x1040E005555AA = some .unlock1 := by decide

/-! ### Single steps, from 95_test_vectors.md -/

/-- The next state, where there is one. -/
def nextOf : Result → Option State
  | .next s => some s
  | _ => none

/-- The refusal, where there is one. -/
def refusalOf : Result → Option Refusal
  | .refused r => some r
  | _ => none

/-- The fault, where there is one. -/
def faultOf : Result → Option Fault
  | .fault f => some f
  | _ => none

/-- A device after RESET, in a phase, with the given transactions presented. -/
def device (c : Capacity) (p : Phase) (rs : List Request) : State :=
  { State.resetOf c false with phase := p, requests := rs }

/-- What the step says of one field. -/
def after {α : Type} (s : State) (f : State → α) : Option α := (nextOf (step s)).map f

/-- V40-1. -/
theorem test_unlock1 : after (device .small .idle [.write 0x0E005555#32 0xAA#8]) (·.phase) = some .unlock1 := by decide
/-- V40-2 and V40-3: an alias of the unlock address. -/
theorem test_idleIgnore_alias :
    after (device .small .idle [.write 0x0E015555#32 0xAA#8]) (·.phase) = some .idle ∧
    after (device .small .idle [.write 0x00005555#32 0xAA#8]) (·.phase) = some .idle := by decide
/-- V40-5: a command byte in Idle. -/
theorem test_idleIgnore_command :
    after (device .small .idle [.write 0x0E005555#32 0x90#8]) (fun t => (t.phase, t.identificationMode)) =
      some (.idle, false) := by decide
/-- V40-7. -/
theorem test_unlock2 :
    after (device .small .unlock1 [.write 0x0E002AAA#32 0x55#8]) (·.phase) = some .commandReady := by decide
/-- V40-8. -/
theorem test_unlock1Ignore_stays :
    after (device .small .unlock1 [.write 0x0E002AAA#32 0x54#8]) (·.phase) = some .unlock1 := by decide
/-- V40-9. -/
theorem test_unlock1Ignore_strict :
    after { device .small .unlock1 [.write 0x0E002AAA#32 0x54#8] with strictUnlock := true } (·.phase) =
      some .idle := by decide
/-- V41-1. -/
theorem test_cmdReadChipId :
    after (device .large .commandReady [.write 0x0E005555#32 0x90#8]) (fun t => (t.phase, t.identificationMode)) =
      some (.idle, true) := by decide
/-- V41-2. -/
theorem test_cmdFinishChipId :
    after { device .large .commandReady [.write 0x0E005555#32 0xF0#8] with identificationMode := true }
      (fun t => (t.phase, t.identificationMode)) = some (.idle, false) := by decide
/-- V41-3. -/
theorem test_cmdErase :
    after (device .small .commandReady [.write 0x0E005555#32 0x80#8]) (fun t => (t.phase, t.eraseArmed)) =
      some (.idle, true) := by decide
/-- V41-4: both banks, and the bank stays. -/
theorem test_cmdEraseChip_armed :
    after { device .large .commandReady [.write 0x0E005555#32 0x10#8] with
        eraseArmed := true, currentBank := 1#1, banks := [(0x00123, 0x00#8), (0x10456, 0x11#8)] }
      (fun t => (t.byteAt 0x00123#17, t.byteAt 0x10456#17, t.eraseArmed, t.currentBank)) =
      some (0xFF#8, 0xFF#8, false, 1#1) := by decide
/-- V41-5: unarmed. -/
theorem test_cmdEraseChip_unarmed :
    after { device .small .commandReady [.write 0x0E005555#32 0x10#8] with banks := [(0x123, 0x00#8)] }
      (fun t => (t.byteAt 0x123#17, t.phase)) = some (0x00#8, .idle) := by decide
/-- V41-6. -/
theorem test_cmdWriteByte :
    after (device .small .commandReady [.write 0x0E005555#32 0xA0#8]) (fun t => (t.phase, t.writeArmed)) =
      some (.extended, true) := by decide
/-- V41-7. -/
theorem test_cmdSelectBank :
    after (device .large .commandReady [.write 0x0E005555#32 0xB0#8]) (fun t => (t.phase, t.bankSelectArmed)) =
      some (.extended, true) := by decide
/-- V41-8. -/
theorem test_cmdSelectBankIgnored :
    after (device .small .commandReady [.write 0x0E005555#32 0xB0#8]) (fun t => (t.phase, t.bankSelectArmed)) =
      some (.idle, false) := by decide
/-- V41-10: the arm stays. -/
theorem test_cmdUnknown :
    after { device .small .commandReady [.write 0x0E005555#32 0x30#8] with eraseArmed := true }
      (fun t => (t.phase, t.eraseArmed)) = some (.idle, true) := by decide
/-- V41-12: sector 0xF of bank 1, its neighbour and the same sector of bank 0. -/
theorem test_cmdEraseSector_armed :
    after { device .large .commandReady [.write 0x0E00F000#32 0x30#8] with
        eraseArmed := true, currentBank := 1#1,
        banks := [(0x0F000, 0x00#8), (0x1EFFF, 0x00#8), (0x1F000, 0x00#8)] }
      (fun t => (t.byteAt 0x1F000#17, t.byteAt 0x1EFFF#17, t.byteAt 0x0F000#17, t.eraseArmed)) =
      some (0xFF#8, 0x00#8, 0x00#8, false) := by decide
/-- V41-13: unarmed. -/
theorem test_cmdEraseSector_unarmed :
    after { device .small .commandReady [.write 0x0E00F000#32 0x30#8] with banks := [(0xF000, 0x00#8)] }
      (fun t => (t.byteAt 0xF000#17, t.phase)) = some (0x00#8, .idle) := by decide
/-- V41-14 and V41-15: not a sector address. -/
theorem test_cmdDiscard :
    after { device .small .commandReady [.write 0x0E001001#32 0x30#8] with
        eraseArmed := true, banks := [(0x1000, 0x00#8)] }
      (fun t => (t.byteAt 0x1000#17, t.eraseArmed, t.phase)) = some (0x00#8, true, .idle) ∧
    after { device .small .commandReady [.write 0x0E011000#32 0x30#8] with
        eraseArmed := true, banks := [(0x1000, 0x00#8)] }
      (fun t => (t.byteAt 0x1000#17, t.eraseArmed)) = some (0x00#8, true) := by decide
/-- V42-2: the high address bits are ignored. -/
theorem test_extProgram_alias :
    after { device .small .extended [.write 0x12345678#32 0x00#8] with writeArmed := true }
      (fun t => (t.byteAt 0x5678#17, t.writeArmed, t.phase)) = some (0x00#8, false, .idle) := by decide
/-- V42-3 replaces the byte, and V42-8 keeps the stale arm. -/
theorem test_extProgram_replaces :
    after { device .large .extended [.write 0x0E000000#32 0xFF#8] with
        writeArmed := true, bankSelectArmed := true, banks := [(0x0, 0x00#8)] }
      (fun t => (t.byteAt 0x0#17, t.banks, t.bankSelectArmed, t.currentBank)) = some (0xFF#8, [], true, 0#1) := by decide
/-- V42-5. -/
theorem test_extSelectBank_odd :
    after { device .large .extended [.write 0x0E000000#32 0x03#8] with bankSelectArmed := true }
      (fun t => (t.currentBank, t.bankSelectArmed, t.phase)) = some (1#1, false, .idle) := by decide
/-- V42-6. -/
theorem test_extSelectBank_even :
    after { device .large .extended [.write 0x0E000000#32 0xFE#8] with bankSelectArmed := true, currentBank := 1#1 }
      (·.currentBank) = some 0#1 := by decide
/-- V42-7 and V42-9. -/
theorem test_extDiscard :
    after { device .large .extended [.write 0x0E000001#32 0x01#8] with bankSelectArmed := true }
      (fun t => (t.currentBank, t.bankSelectArmed, t.phase)) = some (0#1, true, .idle) ∧
    after { device .large .extended [.write 0x0E010000#32 0x01#8] with bankSelectArmed := true }
      (fun t => (t.currentBank, t.bankSelectArmed)) = some (0#1, true) := by decide
/-- V43-2 and V43-3. -/
theorem test_readId_large :
    after { device .large .idle [.read 0x0E000000#32] with identificationMode := true } (·.dataOut) =
      some (some 0xC2#8) ∧
    after { device .large .idle [.read 0x0E010001#32] with identificationMode := true } (·.dataOut) =
      some (some 0x09#8) := by decide
/-- V43-6 and V43-7. -/
theorem test_readId_small :
    after { device .small .idle [.read 0x0E000000#32] with identificationMode := true } (·.dataOut) =
      some (some 0xBF#8) ∧
    after { device .small .idle [.read 0x0E000001#32] with identificationMode := true } (·.dataOut) =
      some (some 0xD4#8) := by decide
/-- V43-5: offset 2 in identification mode. -/
theorem test_readArray_in_identification :
    after { device .large .idle [.read 0x0E000002#32] with
        identificationMode := true, banks := [(0x00002, 0x77#8)] } (·.dataOut) = some (some 0x77#8) := by decide
/-- V43-11: bank 1. -/
theorem test_readArray_bank :
    after { device .large .idle [.read 0x0E000010#32] with
        currentBank := 1#1, banks := [(0x00010, 0x5A#8)] } (·.dataOut) = some (some 0xFF#8) := by decide
/-- V44-1 and V44-2. -/
theorem test_rawRead :
    after { device .large .idle [.rawRead 0x10010#17] with currentBank := 1#1, banks := [(0x10010, 0x77#8)] }
      (·.dataOut) = some (some 0x77#8) ∧
    after { device .large .idle [.rawRead 0x00010#17] with currentBank := 1#1, banks := [(0x10010, 0x77#8)] }
      (·.dataOut) = some (some 0xFF#8) := by decide
/-- V44-6. -/
theorem test_rawRead_out_of_range :
    refusalOf (step (device .small .idle [.rawRead 0x10000#17])) = some .rawIndexOutOfRange := by decide
/-- V44-5. -/
theorem test_rawWrite :
    after { device .small .extended [.rawWrite 0x00005#17 0x99#8] with writeArmed := true }
      (fun t => (t.byteAt 0x00005#17, t.phase, t.writeArmed)) = some (0x99#8, .extended, true) := by decide
/-- V44-7: index 0x20000, which no 17-bit index holds. -/
theorem test_rawWrite_out_of_range :
    refusalOf (step (device .large .idle [⟨0b100#3, 0x20000#32, 0x00#8⟩])) = some .rawIndexOutOfRange := by decide
/-- V70-1. -/
theorem test_reset :
    nextOf (step { device .large .extended [.reset] with
        eraseArmed := true, writeArmed := true, identificationMode := true, currentBank := 1#1,
        banks := [(0x10001, 0x00#8)] }) = some (State.resetOf .large false) := by decide
/-- V70-2. -/
theorem test_beforeFirstReset :
    refusalOf (step { State.constructed .small false ⟨.idle, false, false, false, false, 0#1, []⟩ with
      requests := [.read 0x0E000000#32] }) = some .beforeFirstReset := by decide

/-- Two table words placed on the reset state run the instruction they name. -/
theorem test_withFetchWord :
    after (State.reset.withFetchWord 48 0x060E00555590) (·.identificationMode) = some true ∧
    after (State.reset.withFetchWord 48 0x070E00000000) (fun t => (t.phase, t.bankSelectArmed)) =
      some (.idle, false) := by decide

/-! ### Witnesses: states and operands that meet the hypotheses of each obligation together

A witness carries its obligation's name. Where the hypotheses run through a step, it also says that the step answers.
The two identifier Reads, the ends of the index range and the neighbours of each address are taken one clause each. -/

/-- The block has been reset, is in the phase, and has the transactions pending. -/
abbrev holds (s : State) (p : Phase) (rs : List Request) : Prop := s.isReset = true ∧ s.phase = p ∧ s.requests = rs

/-- A Large device in its second bank with a byte program armed, and a stale bank-select arm. -/
def programming (rs : List Request) : State :=
  { device .large .extended rs with writeArmed := true, bankSelectArmed := true, currentBank := 1#1 }

/-- A Large device with a bank select armed. -/
def selecting (rs : List Request) : State := { device .large .extended rs with bankSelectArmed := true }

/-- A Large device in its second bank, in CommandReady with the erase armed. -/
def erasing (rs : List Request) : State :=
  { device .large .commandReady rs with eraseArmed := true, currentBank := 1#1 }

/-- What construction may have left: a phase, flags and bytes that no run from RESET has together. -/
def powerOn : Unspecified := ⟨.extended, true, false, false, true, 1#1, [(0, 0x00#8)]⟩

/-- A Small device before its first RESET. -/
def unreset (rs : List Request) : State := { State.constructed .small false powerOn with requests := rs }

/-- For a row of each family, at the ends of their operands. -/
theorem witness_DecodeEncodeRoundTrip :
    (Instr.readId 0xFFFF0001#32).wellFormed = true ∧
    (Instr.readId 0xFFFF0001#32).admitted ⟨.small, true, false, false⟩ = true ∧
    (Instr.idleIgnore 0xFFFFFFFF#32 0xFF#8).wellFormed = true ∧
    (Instr.idleIgnore 0xFFFFFFFF#32 0xFF#8).admitted (plain .small) = true ∧
    (Instr.cmdUnknown 0x30#8).wellFormed = true ∧ (Instr.cmdUnknown 0x30#8).admitted (plain .small) = true ∧
    (Instr.extDiscard 0x0E000000#32 0x01#8).wellFormed = true ∧
    (Instr.extDiscard 0x0E000000#32 0x01#8).admitted (plain .large) = true ∧
    (Instr.rawWrite 0x0FFFF#17 0xFF#8).wellFormed = true ∧
    (Instr.rawWrite 0x0FFFF#17 0xFF#8).admitted (plain .small) = true := by decide

theorem witness_DecodedInstructionIsOfItsOwnRow :
    decode (plain .large) 0x07FFFFFFFFFF#45 = .ok (.extDiscard 0xFFFFFFFF#32 0xFF#8) := rfl

/-- A bus key; the last index in range; the first out of range; and the last there is. -/
theorem witness_KeySelectsExactlyOneFirstRow :
    ((keyKind 0x0BFFFFFFFFFF#45).toNat ≤ 4 ∧ (keyKind 0x0BFFFFFFFFFF#45).toNat ≤ 2) ∧
    ((keyKind 0x0C0001FFFF00#45).toNat ≤ 4 ∧ (keyAddr 0x0C0001FFFF00#45).toNat < (plain .large).capacity.bytes) ∧
    ((keyKind 0x100002000000#45).toNat ≤ 4 ∧ 3 ≤ (keyKind 0x100002000000#45).toNat ∧
      (plain .large).capacity.bytes ≤ (keyAddr 0x100002000000#45).toNat) ∧
    ((keyKind 0x13FFFFFFFFFF#45).toNat ≤ 4 ∧ 3 ≤ (keyKind 0x13FFFFFFFFFF#45).toNat ∧
      (plain .small).capacity.bytes ≤ (keyAddr 0x13FFFFFFFFFF#45).toNat) := by decide

theorem witness_StepRunsTheDecodedInstruction :
    (device .large .idle [.write 0x0E005555#32 0xAA#8]).requests = .write 0x0E005555#32 0xAA#8 :: [] ∧
    decode ⟨.large, false, false, false⟩ (makeKey kindWrite .idle 0x0E005555#32 0xAA#8) = .ok .unlock1 := ⟨rfl, rfl⟩

theorem witness_PlacedTableWordRuns :
    State.reset.capacity = constructedCapacity ∧ decodeTableWord 48 0x040E005555AA = some .unlock1 := by decide

/-- A Write in Extended. -/
theorem witness_EveryTransactionCompletes :
    (programming [.write 0xFFFFFFFF#32 0xFF#8]).Inv ∧
    holds (programming [.write 0xFFFFFFFF#32 0xFF#8]) .extended [.write 0xFFFFFFFF#32 0xFF#8] ∧
    (Request.write 0xFFFFFFFF#32 0xFF#8).isTransaction .large = true := by decide

/-- The last raw index. -/
theorem witness_EveryTransactionCompletes_raw :
    (programming [.rawRead 0x1FFFF#17]).Inv ∧ (programming [.rawRead 0x1FFFF#17]).isReset = true ∧
    (Request.rawRead 0x1FFFF#17).isTransaction .large = true := by decide

/-- The first index out of range, of each variant and either kind. -/
theorem witness_RawIndexOutOfRangeIsRefused :
    (device .small .idle [.rawRead 0x10000#17]).requests = .rawRead 0x10000#17 :: [] ∧
    (Request.rawRead 0x10000#17).kind = 0b011#3 ∧ Capacity.small.bytes ≤ (Request.rawRead 0x10000#17).address.toNat ∧
    (device .large .idle [⟨0b100#3, 0x20000#32, 0x00#8⟩]).requests = ⟨0b100#3, 0x20000#32, 0x00#8⟩ :: [] ∧
    Capacity.large.bytes ≤ (⟨0b100#3, 0x20000#32, 0x00#8⟩ : Request).address.toNat := by decide

theorem witness_UnusedKindsAreRefused :
    (device .small .idle [⟨0b111#3, 0#32, 0#8⟩]).requests = ⟨0b111#3, 0#32, 0#8⟩ :: [] ∧
    (⟨0b111#3, 0#32, 0#8⟩ : Request).kind = 0b111#3 := by decide

/-- RESET, a transaction that is not RESET, and a request that is no transaction. -/
theorem witness_OnlyResetRunsBeforeTheFirstReset :
    ((unreset [.reset]).isReset = false ∧ (unreset [.reset]).requests = .reset :: [] ∧
      Request.reset.kind = 0b010#3) ∧
    ((unreset [.read 0#32]).isReset = false ∧ (unreset [.read 0#32]).requests = .read 0#32 :: [] ∧
      (Request.read 0#32).kind ≠ 0b010#3 ∧ (Request.read 0#32).isTransaction .small = true) ∧
    ((unreset [⟨0b111#3, 0#32, 0#8⟩]).isReset = false ∧ (⟨0b111#3, 0#32, 0#8⟩ : Request).kind ≠ 0b010#3) := by decide

/-- A Read, which is refused on the start state. -/
theorem witness_ConstructedBlockStartsUnreset :
    (Request.read 0#32).kind ≠ 0b010#3 ∧ (Request.read 0#32).isTransaction .small = true := by decide

/-- V70-1 on the start state, with one transaction more: the stream runs, and the Read sees an erased byte. -/
theorem witness_StartedBlockRunsOnlyAfterReset :
    (nextOf (Sys2Proof.core.run 2 (unreset [.reset, .read 0x0E000000#32]))).map (fun t => (t.phase, t.dataOut)) =
      some (.idle, some 0xFF#8) := by decide

theorem witness_NoPendingTransactionNoStep : State.reset.requests = [] := by decide

/-- A program at the last byte of a Large device. -/
theorem witness_StepKeepsTheInvariant :
    (programming [.write 0x0E00FFFF#32 0x00#8]).Inv ∧
    after (programming [.write 0x0E00FFFF#32 0x00#8]) (·.banks) = some [(0x1FFFF, 0x00#8)] := by decide

theorem witness_ReachableStatesAreLegal :
    (nextOf (Sys2Proof.core.run 3 { State.resetOf .large false with requests := [.write 0x0E005555#32 0xAA#8,
      .write 0x0E002AAA#32 0x55#8, .write 0x0E005555#32 0xB0#8] })).map (fun t => (t.phase, t.bankSelectArmed)) =
      some (.extended, true) := by decide

theorem witness_SmallDeviceStaysInBankZero :
    (nextOf (Sys2Proof.core.run 3 { State.resetOf .small false with requests := [.write 0x0E005555#32 0xAA#8,
      .write 0x0E002AAA#32 0x55#8, .write 0x0E005555#32 0xB0#8] })).map (·.phase) = some .idle := by decide

theorem witness_NoStepFaults : (programming [.write 0x0E00FFFF#32 0x00#8]).Inv := by decide

theorem witness_ConstructionParametersNeverChange :
    after (device .small .idle [.reset]) (·.capacity) = some .small := by decide

/-- A step into each of Unlock1, CommandReady and Extended, and into Idle by each of its ways. -/
theorem witness_PhaseAdvancesOnlyByTheGrammar :
    after (device .small .idle [.write 0x0E005555#32 0xAA#8]) (·.phase) = some .unlock1 ∧
    after (device .small .unlock1 [.write 0x0E002AAA#32 0x55#8]) (·.phase) = some .commandReady ∧
    after (device .large .commandReady [.write 0x0E005555#32 0xB0#8]) (·.phase) = some .extended ∧
    after (device .large .unlock1 [.reset]) (·.phase) = some .idle ∧
    after (programming [.write 0x0E005555#32 0xA0#8]) (·.phase) = some .idle ∧
    after (device .small .commandReady [.write 0x0E005555#32 0xB0#8]) (·.phase) = some .idle ∧
    after { device .small .unlock1 [.write 0x0E002AAA#32 0x54#8] with strictUnlock := true } (·.phase) =
      some .idle := by decide

/-- A step that sets each flag and one that clears it. -/
theorem witness_ArmedFlagsChangeOnlyByTheirRules :
    after (device .large .commandReady [.write 0x0E005555#32 0x80#8]) (·.eraseArmed) = some true ∧
    after (erasing [.write 0x0E00F000#32 0x30#8]) (·.eraseArmed) = some false ∧
    after (device .large .commandReady [.write 0x0E005555#32 0xA0#8]) (·.writeArmed) = some true ∧
    after (programming [.write 0x0E000000#32 0x00#8]) (·.writeArmed) = some false ∧
    after (device .large .commandReady [.write 0x0E005555#32 0xB0#8]) (·.bankSelectArmed) = some true ∧
    after (selecting [.write 0x0E000000#32 0x00#8]) (·.bankSelectArmed) = some false := by decide

/-- A step that changes the bank, and steps into and out of identification mode. -/
theorem witness_BankAndModeChangeOnlyByTheirRules :
    after (selecting [.write 0x0E000000#32 0x01#8]) (·.currentBank) = some 1#1 ∧
    after (device .small .commandReady [.write 0x0E005555#32 0x90#8]) (·.identificationMode) = some true ∧
    after { device .small .commandReady [.write 0x0E005555#32 0xF0#8] with identificationMode := true }
      (·.identificationMode) = some false := by decide

/-- Byte 0 of the second bank changes from 0xFF. -/
theorem witness_BytesChangeOnlyByTheirRules :
    (programming [.write 0x0E000000#32 0x00#8]).Inv ∧
    (programming [.write 0x0E000000#32 0x00#8]).byteAt 0x10000#17 = 0xFF#8 ∧
    after (programming [.write 0x0E000000#32 0x00#8]) (·.byteAt 0x10000#17) = some 0x00#8 := by decide

/-- Both identifier offsets, and the first offset that is none. -/
theorem witness_ReadMeaningsComplete :
    ({ State.reset with identificationMode := true }).isReset = true ∧
    ({ State.reset with identificationMode := true }).identificationMode = true ∧
    (0xFFFF0000#32 : Addr).extractLsb' 0 16 = 0#16 ∧ (0x0E000001#32 : Addr).extractLsb' 0 16 = 1#16 ∧
    ¬ ((0x0E000002#32 : Addr).extractLsb' 0 16 = 0#16 ∨ (0x0E000002#32 : Addr).extractLsb' 0 16 = 1#16) ∧
    ({ State.reset with identificationMode := true }).currentBank.toNat < State.reset.capacity.numBanks := by decide

theorem witness_ReadReturnsIdentifierOrArrayByte :
    holds (programming [.read 0xFFFFFFFF#32]) .extended [.read 0xFFFFFFFF#32] ∧
    (programming [.read 0xFFFFFFFF#32]).currentBank.toNat < Capacity.large.numBanks := by decide

theorem witness_ReadsHaveNoSideEffect :
    holds (programming [.read 0#32, .read 0#32]) .extended [.read 0#32, .read 0#32] ∧
    (programming [.read 0#32, .read 0#32]).Inv := by decide

theorem witness_ReadIgnoresTheHighAddressBits :
    (0x0E00ABCD#32 : Addr).extractLsb' 0 16 = (0x0E01ABCD#32 : Addr).extractLsb' 0 16 := by decide

/-- Either phase, with a value one off and an address one off. -/
theorem witness_UnlockMeaningsComplete :
    holds (device .small .idle []) .idle [] ∧ holds (device .small .unlock1 []) .unlock1 [] ∧
    ¬ ((0x0E005555#32 : Addr) = 0x0E005555#32 ∧ (0xAB#8 : Byte) = 0xAA#8) ∧
    ¬ ((0x0E002AAB#32 : Addr) = 0x0E002AAA#32 ∧ (0x55#8 : Byte) = 0x55#8) := by decide

theorem witness_WriteInIdle :
    holds (device .small .idle [.write 0x0E015555#32 0xAA#8]) .idle [.write 0x0E015555#32 0xAA#8] := by decide

theorem witness_WriteInUnlock1 :
    holds (device .small .unlock1 [.write 0x0E002AAB#32 0x55#8]) .unlock1 [.write 0x0E002AAB#32 0x55#8] := by decide

/-- Its clauses: from Idle, from Unlock1, and from Unlock1 under `P_STRICT_UNLOCK`. -/
theorem witness_UnlockSequenceReachesCommandReady :
    holds (device .small .idle [.write 0x0E005555#32 0xAA#8, .write 0x0E002AAA#32 0x55#8]) .idle
      [.write 0x0E005555#32 0xAA#8, .write 0x0E002AAA#32 0x55#8] ∧
    holds { device .small .unlock1 [.write 0x0E005555#32 0xAA#8, .write 0x0E002AAA#32 0x55#8] with
        strictUnlock := true } .unlock1 [.write 0x0E005555#32 0xAA#8, .write 0x0E002AAA#32 0x55#8] ∧
    (device .small .unlock1 []).strictUnlock = false := by decide

/-- Two wrong Writes, each one off. -/
theorem witness_Unlock1IsSticky :
    (∀ w ∈ [((0x0E002AAA#32 : Addr), (0x54#8 : Byte)), (0x0E002AAB#32, 0x55#8)], w ≠ (0x0E002AAA#32, 0x55#8)) ∧
    holds (device .small .unlock1
        [.write 0x0E002AAA#32 0x54#8, .write 0x0E002AAB#32 0x55#8, .write 0x0E002AAA#32 0x55#8]) .unlock1
      [.write 0x0E002AAA#32 0x54#8, .write 0x0E002AAB#32 0x55#8, .write 0x0E002AAA#32 0x55#8] ∧
    (device .small .unlock1 []).strictUnlock = false := ⟨by simp, by decide⟩

/-- Either capacity, a value outside the command table, and a Write that is neither a command nor a sector erase. -/
theorem witness_FlagCommandMeaningsComplete :
    holds (device .large .commandReady []) .commandReady [] ∧ (device .large .commandReady []).capacity = .large ∧
    holds (device .small .commandReady []) .commandReady [] ∧ (device .small .commandReady []).capacity = .small ∧
    (0x30#8 : Byte) ∉ [0x10#8, 0x80#8, 0x90#8, 0xA0#8, 0xB0#8, 0xF0#8] ∧ (0x0E001001#32 : Addr) ≠ 0x0E005555#32 ∧
    ¬ ((0x0E001001#32 : Addr) &&& 0xFFFF0FFF#32 = 0x0E000000#32 ∧ (0x30#8 : Byte) = 0x30#8) := by decide

/-- Unarmed; armed in the last bank, whose last sector ends at the last index; and the first index a Small device
lacks. -/
theorem witness_EraseMeaningsComplete :
    holds (device .large .commandReady []) .commandReady [] ∧ (device .large .commandReady []).eraseArmed = false ∧
    holds (erasing []) .commandReady [] ∧ (erasing []).eraseArmed = true ∧
    (erasing []).currentBank.toNat < (erasing []).capacity.numBanks ∧
    (sectorIndex (erasing []).currentBank 15#4).toNat ≤ (0x1FFFF#17 : ArrayIndex).toNat ∧
    (0x1FFFF#17 : ArrayIndex).toNat < (sectorIndex (erasing []).currentBank 15#4).toNat + 4096 ∧
    Capacity.small.bytes ≤ (0x10000#17 : ArrayIndex).toNat := by decide

theorem witness_CommandWriteAtCmdAddr :
    holds (device .small .commandReady [.write 0x0E005555#32 0xB0#8]) .commandReady [.write 0x0E005555#32 0xB0#8] ∧
    (0xB0#8 : Byte) ≠ 0x10#8 := by decide

theorem witness_ChipEraseWrite :
    holds (erasing [.write 0x0E005555#32 0x10#8]) .commandReady [.write 0x0E005555#32 0x10#8] ∧
    (erasing [.write 0x0E005555#32 0x10#8]).eraseArmed = true ∧
    holds (device .large .commandReady [.write 0x0E005555#32 0x10#8]) .commandReady [.write 0x0E005555#32 0x10#8] ∧
    (device .large .commandReady [.write 0x0E005555#32 0x10#8]).eraseArmed = false := by decide

/-- The last sector of the last bank; the first sector address is one too. -/
theorem witness_SectorEraseWrite :
    holds (erasing [.write 0x0E00F000#32 0x30#8]) .commandReady [.write 0x0E00F000#32 0x30#8] ∧
    (erasing [.write 0x0E00F000#32 0x30#8]).currentBank.toNat < Capacity.large.numBanks ∧
    (0x0E00F000#32 : Addr) &&& 0xFFFF0FFF#32 = 0x0E000000#32 ∧
    (0x0E000000#32 : Addr) &&& 0xFFFF0FFF#32 = 0x0E000000#32 := by decide

/-- One byte past a sector address, and a sector address with another value. -/
theorem witness_OtherWriteInCommandReadyIsDiscarded :
    holds (erasing [.write 0x0E001001#32 0x30#8]) .commandReady [.write 0x0E001001#32 0x30#8] ∧
    (0x0E001001#32 : Addr) ≠ 0x0E005555#32 ∧
    ¬ ((0x0E001001#32 : Addr) &&& 0xFFFF0FFF#32 = 0x0E000000#32 ∧ (0x30#8 : Byte) = 0x30#8) ∧
    ¬ ((0x0E001000#32 : Addr) &&& 0xFFFF0FFF#32 = 0x0E000000#32 ∧ (0x31#8 : Byte) = 0x30#8) := by decide

/-- A Write that goes to Extended and one that does not. -/
theorem witness_CommandReadyConsumesExactlyOneWrite :
    holds (erasing [.write 0x0E005555#32 0xA0#8]) .commandReady [.write 0x0E005555#32 0xA0#8] ∧
    after (erasing [.write 0x0E005555#32 0xA0#8]) (·.phase) = some .extended ∧
    holds (device .small .commandReady [.write 0x0E005555#32 0xB0#8]) .commandReady [.write 0x0E005555#32 0xB0#8] ∧
    after (device .small .commandReady [.write 0x0E005555#32 0xB0#8]) (·.phase) = some .idle := by decide

/-- Programming, with the stale arm; selecting; and a wrong address. -/
theorem witness_PayloadMeaningsComplete :
    (holds (programming []) .extended [] ∧ (programming []).writeArmed = true ∧ (programming []).Inv) ∧
    (holds (selecting []) .extended [] ∧ (selecting []).writeArmed = false ∧ (selecting []).bankSelectArmed = true ∧
      ¬ ((selecting []).bankSelectArmed = true ∧ (0x0E000001#32 : Addr) = 0x0E000000#32)) := by decide

theorem witness_ProgramPayloadWrite :
    holds (programming [.write 0xFFFFFFFF#32 0x00#8]) .extended [.write 0xFFFFFFFF#32 0x00#8] ∧
    (programming [.write 0xFFFFFFFF#32 0x00#8]).writeArmed = true ∧
    (programming [.write 0xFFFFFFFF#32 0x00#8]).Inv := by decide

theorem witness_BankSelectPayloadWrite :
    holds (selecting [.write 0x0E000000#32 0x03#8]) .extended [.write 0x0E000000#32 0x03#8] ∧
    (selecting [.write 0x0E000000#32 0x03#8]).writeArmed = false ∧
    (selecting [.write 0x0E000000#32 0x03#8]).bankSelectArmed = true := by decide

/-- A wrong address, and the right address without the arm. -/
theorem witness_OtherPayloadWriteIsDiscarded :
    (holds (selecting [.write 0x0E010000#32 0x01#8]) .extended [.write 0x0E010000#32 0x01#8] ∧
      (selecting [.write 0x0E010000#32 0x01#8]).writeArmed = false ∧
      ¬ ((selecting [.write 0x0E010000#32 0x01#8]).bankSelectArmed = true ∧ (0x0E010000#32 : Addr) = 0x0E000000#32)) ∧
    (holds (device .large .extended [.write 0x0E000000#32 0x01#8]) .extended [.write 0x0E000000#32 0x01#8] ∧
      (device .large .extended [.write 0x0E000000#32 0x01#8]).writeArmed = false ∧
      ¬ ((device .large .extended [.write 0x0E000000#32 0x01#8]).bankSelectArmed = true ∧
        (0x0E000000#32 : Addr) = 0x0E000000#32)) := by decide

/-- An alias, outside identification mode; and an offset that identification mode does not hide. -/
theorem witness_ReadAfterProgramReturnsTheByte :
    holds (programming [.write 0x0E000000#32 0x12#8, .read 0xFFFF0000#32]) .extended
      [.write 0x0E000000#32 0x12#8, .read 0xFFFF0000#32] ∧
    (programming [.write 0x0E000000#32 0x12#8, .read 0xFFFF0000#32]).Inv ∧
    (programming [.write 0x0E000000#32 0x12#8, .read 0xFFFF0000#32]).writeArmed = true ∧
    (programming [.write 0x0E000000#32 0x12#8, .read 0xFFFF0000#32]).identificationMode = false ∧
    (0xFFFF0000#32 : Addr).extractLsb' 0 16 = (0x0E000000#32 : Addr).extractLsb' 0 16 ∧
    (0x0E000002#32 : Addr).extractLsb' 1 15 ≠ 0#15 := by decide

/-- The raw read of the programmed byte. -/
theorem witness_ReadAfterProgramReturnsTheByte_raw :
    (programming [.write 0x0E000000#32 0x12#8, .rawRead 0x10000#17]).requests =
      .write 0x0E000000#32 0x12#8 ::
        .rawRead ((programming []).currentBank ++ (0x0E000000#32 : Addr).extractLsb' 0 16) :: [] ∧
    (programming [.write 0x0E000000#32 0x12#8, .rawRead 0x10000#17]).Inv := by decide

theorem witness_ResetMeaningCompletes :
    nextOf (exec .reset (unreset [])) = some (State.resetOf .small false) := by decide

theorem witness_ResetAlwaysReachesTheResetState : (unreset [.reset]).requests = .reset :: [] := by decide

/-- The last index in range of each variant, and the first out of range. -/
theorem witness_RawMeaningsComplete :
    (device .large .idle []).isReset = true ∧ Memory.wf (device .large .idle []).banks ∧
    (0x1FFFF#17 : ArrayIndex).toNat < (device .large .idle []).capacity.bytes ∧
    (device .small .idle []).isReset = true ∧ Memory.wf (device .small .idle []).banks ∧
    (0x0FFFF#17 : ArrayIndex).toNat < (device .small .idle []).capacity.bytes ∧
    (device .small .idle []).capacity.bytes ≤ (0x10000#17 : ArrayIndex).toNat := by decide

theorem witness_RawAccessIgnoresTheDecoder :
    holds (device .large .idle [.rawWrite 0x1FFFF#17 0#8]) .idle [.rawWrite 0x1FFFF#17 0#8] ∧
    holds (programming [.rawWrite 0x1FFFF#17 0#8]) .extended [.rawWrite 0x1FFFF#17 0#8] ∧
    (Request.rawWrite 0x1FFFF#17 0#8).kind = 0b100#3 ∧ (Request.rawWrite 0x1FFFF#17 0#8).isTransaction .large = true ∧
    (programming [.rawWrite 0x1FFFF#17 0#8]).capacity = (device .large .idle [.rawWrite 0x1FFFF#17 0#8]).capacity ∧
    (programming [.rawWrite 0x1FFFF#17 0#8]).banks = (device .large .idle [.rawWrite 0x1FFFF#17 0#8]).banks := by
  decide

theorem witness_ImageLoadedBeforeResetIsLost :
    holds (device .small .idle [.rawWrite 0x0FFFF#17 0x42#8, .reset, .rawRead 0x0FFFF#17]) .idle
      [.rawWrite 0x0FFFF#17 0x42#8, .reset, .rawRead 0x0FFFF#17] ∧
    (0x0FFFF#17 : ArrayIndex).toNat < Capacity.small.bytes := by decide

/-- The last offset and the last sector of the last bank. -/
theorem witness_BusAccessReachesTheArray :
    holds (programming []) .extended [] ∧ (programming []).Inv ∧
    ((programming []).busIndex 0xFFFFFFFF#32).toNat = 131071 ∧
    (sectorIndex (programming []).currentBank 15#4).toNat = 126976 := by decide

/-- The stop of log 9: a program on a Small device in a bank it does not have, which no run reaches. -/
theorem test_noSuchBank :
    faultOf (exec (.extProgram 0#32 0#8) { programming [] with capacity := .small }) = some .noSuchBank := by decide

theorem witness_EraseIsTheSpecsFill : Memory.wf [(0x3004, 0x12#8), (0x4000, 0x34#8)] := by decide

/-- The stale arm in Idle, and in Extended with `writeArmed`. -/
theorem witness_StaleBankSelectArmIsNeverObserved :
    (device .large .idle []).agreeButStaleArm { device .large .idle [] with bankSelectArmed := true } ∧
    ({ programming [] with bankSelectArmed := false }).agreeButStaleArm (programming []) :=
  ⟨⟨rfl, fun h => by cases h⟩, ⟨rfl, fun _ h => by cases h⟩⟩

/-- From Extended with `writeArmed`; the Read before the sequence returns 0xFF. -/
theorem witness_ResyncReachesIdleAndKeepsMemory :
    holds (programming [.read 0x0E00FFFF#32, .write 0x0E00FFFF#32 0xFF#8, .write 0x0E002AAA#32 0x55#8,
        .write 0x0E00FFFF#32 0xFF#8]) .extended [.read 0x0E00FFFF#32, .write 0x0E00FFFF#32 0xFF#8,
        .write 0x0E002AAA#32 0x55#8, .write 0x0E00FFFF#32 0xFF#8] ∧
    (programming [.read 0x0E00FFFF#32]).Inv ∧
    after (programming [.read 0x0E00FFFF#32, .write 0x0E00FFFF#32 0xFF#8, .write 0x0E002AAA#32 0x55#8,
      .write 0x0E00FFFF#32 0xFF#8]) (·.dataOut) = some (some 0xFF#8) := by decide

/-- Its clauses: the armed sequence, and the unarmed one. -/
theorem witness_ChipEraseNeedsItsArm :
    holds (device .large .idle [.write 0x0E005555#32 0xAA#8, .write 0x0E002AAA#32 0x55#8,
        .write 0x0E005555#32 0x80#8, .write 0x0E005555#32 0xAA#8, .write 0x0E002AAA#32 0x55#8,
        .write 0x0E005555#32 0x10#8]) .idle [.write 0x0E005555#32 0xAA#8, .write 0x0E002AAA#32 0x55#8,
        .write 0x0E005555#32 0x80#8, .write 0x0E005555#32 0xAA#8, .write 0x0E002AAA#32 0x55#8,
        .write 0x0E005555#32 0x10#8] ∧
    holds (device .large .idle [.write 0x0E005555#32 0xAA#8, .write 0x0E002AAA#32 0x55#8,
        .write 0x0E005555#32 0x10#8]) .idle [.write 0x0E005555#32 0xAA#8, .write 0x0E002AAA#32 0x55#8,
        .write 0x0E005555#32 0x10#8] ∧
    (device .large .idle [.write 0x0E005555#32 0xAA#8]).eraseArmed = false := by decide

end Sys2Proof.Tests
end

section
/-! PROOFS. The scope statements (00_scope.md): the erase of a range is the spec's `Fill` (R11, R64), and a step runs
the instruction its key decodes to (R13, R82). -/

namespace Sys2Proof.Proofs.Scope

open Sys2Proof Sys2Proof.Machine Sys2Proof.Laws

/-- A step runs the instruction that the state selects for the oldest request, once the request is consumed. -/
theorem step_of_select {s : State} {r : Request} {rest : List Request} {i : Instr} (h : s.requests = r :: rest)
    (hi : s.select r = .ok i) : step s = exec i (s.consume rest) := by
  rw [step_of_requests h, hi]

/-- Settles O6: decoding the key in the state's phase and context is what `State.select` does. -/
theorem stepRunsTheDecodedInstruction : Obligations.StepRunsTheDecodedInstruction :=
  fun _ _ _ _ hreq hdec => step_of_select hreq hdec

/-- Settles O50: both sides are in canonical form and read the same at every index, so they are the same data. -/
theorem eraseIsTheSpecsFill : Obligations.EraseIsTheSpecsFill := by
  intro m start n hm
  refine wf_ext (wf_memErase hm start n) (wf_memFill hm start n _) fun j => ?_
  calc memRead (memErase m start n) j
      = if start ≤ j ∧ j < start + n then erased else memRead m j := memRead_memErase m start n j
    _ = memRead (memFill m start n 0xFF#8) j := (memRead_memFill hm start n j 0xFF#8).symm

end Sys2Proof.Proofs.Scope
end

section
/-! PROOFS. The statements of 10_state.md: what may change each element of the state (R22 to R35, R57, R58). Every
step leaves the state that its row's effect makes (`step_next_rowEffect`); one lemma per element says which rows write
that element and what, and the statements follow from those lemmas and from `rowFacts`. -/

namespace Sys2Proof.Proofs.StateRules

open Sys2Proof Sys2Proof.Machine Sys2Proof.Laws

/-! ### The effect of a row -/

/-- The last column of the decode table (R86): the state a row leaves where it runs. What the row asks of the state
before it runs is `rowFacts`. -/
def rowEffect : Instr → State → State
  | .readId a, s => s.answer (identifierByte s.capacity (idByte a))
  | .readArray a, s => s.answer (s.byteAt (s.busIndex a))
  | .unlock1, s => s.setPhase .unlock1
  | .idleIgnore _ _, s => s
  | .unlock2, s => s.setPhase .commandReady
  | .unlock1Ignore _ _, s => if s.strictUnlock then s.setPhase .idle else s
  | .cmdReadChipId, s => (s.setIdentificationMode true).setPhase .idle
  | .cmdFinishChipId, s => (s.setIdentificationMode false).setPhase .idle
  | .cmdErase, s => (s.setEraseArmed true).setPhase .idle
  | .cmdEraseChip, s =>
      if s.eraseArmed then ((s.eraseBytes 0 s.capacity.bytes).setEraseArmed false).setPhase .idle else s.setPhase .idle
  | .cmdWriteByte, s => (s.setWriteArmed true).setPhase .extended
  | .cmdSelectBank, s => (s.setBankSelectArmed true).setPhase .extended
  | .cmdSelectBankIgnored, s => s.setPhase .idle
  | .cmdUnknown _, s => s.setPhase .idle
  | .cmdEraseSector n, s =>
      if s.eraseArmed then
        ((s.eraseBytes (sectorIndex s.currentBank n).toNat sectorSize).setEraseArmed false).setPhase .idle
      else s.setPhase .idle
  | .cmdDiscard _ _, s => s.setPhase .idle
  | .extProgram a v, s => ((s.writeByte (s.busIndex a) v).setWriteArmed false).setPhase .idle
  | .extSelectBank v, s =>
      ((s.setCurrentBank (if s.capacity = .large then bankBit v else s.currentBank)).setBankSelectArmed
        false).setPhase .idle
  | .extDiscard _ _, s => s.setPhase .idle
  | .reset, s => s.applyReset
  | .rawRead i, s => s.answer (s.byteAt i)
  | .rawWrite i v, s => s.writeByte i v

/-- A meaning that answers leaves its row's effect. -/
theorem eq_rowEffect_of_exec {i : Instr} {s t : State} (h : exec i s = .next t) : t = rowEffect i s := by
  cases i with
  | readId a => exact (exec_readId_next.1 h).2.2
  | readArray a => exact (exec_readArray_next.1 h).2.2.2
  | unlock1 => exact (exec_unlock1_next.1 h).2.2
  | idleIgnore a v => exact (exec_idleIgnore_next.1 h).2.2
  | unlock2 => exact (exec_unlock2_next.1 h).2.2
  | unlock1Ignore a v =>
    obtain ⟨-, -, ⟨hs, rfl⟩ | ⟨hs, rfl⟩⟩ := exec_unlock1Ignore_next.1 h <;> simp [rowEffect, hs]
  | cmdReadChipId => exact (exec_cmdReadChipId_next.1 h).2.2
  | cmdFinishChipId => exact (exec_cmdFinishChipId_next.1 h).2.2
  | cmdErase => exact (exec_cmdErase_next.1 h).2.2
  | cmdEraseChip =>
    obtain ⟨-, -, ⟨ha, rfl⟩ | ⟨ha, rfl⟩⟩ := exec_cmdEraseChip_next.1 h <;> simp [rowEffect, ha]
  | cmdWriteByte => exact (exec_cmdWriteByte_next.1 h).2.2
  | cmdSelectBank => exact (exec_cmdSelectBank_next.1 h).2.2
  | cmdSelectBankIgnored => exact (exec_cmdSelectBankIgnored_next.1 h).2.2
  | cmdUnknown v => exact (exec_cmdUnknown_next.1 h).2.2
  | cmdEraseSector n =>
    obtain ⟨-, -, ⟨ha, -, rfl⟩ | ⟨ha, rfl⟩⟩ := exec_cmdEraseSector_next.1 h <;> simp [rowEffect, ha]
  | cmdDiscard a v => exact (exec_cmdDiscard_next.1 h).2.2
  | extProgram a v => exact (exec_extProgram_next.1 h).2.2.2
  | extSelectBank v => exact (exec_extSelectBank_next.1 h).2.2
  | extDiscard a v => exact (exec_extDiscard_next.1 h).2.2
  | reset => exact exec_reset_next.1 h
  | rawRead i => exact (exec_rawRead_next.1 h).2.2
  | rawWrite i v => exact (exec_rawWrite_next.1 h).2.2

/-- What a step that answers has done: it has taken the oldest request, whose row the state selects, and has left that
row's effect; only RESET runs on a block that was never reset (R254). -/
theorem step_next_rowEffect {s t : State} (h : step s = .next t) :
    ∃ r rest i, s.requests = r :: rest ∧ rowFacts s r i ∧ (i ≠ .reset → s.isReset = true) ∧
      t = rowEffect i (s.consume rest) := by
  obtain ⟨r, rest, i, hreq, hrow, hexec⟩ := step_eq_next.1 h
  refine ⟨r, rest, i, hreq, hrow, fun hi => ?_, eq_rowEffect_of_exec hexec⟩
  by_contra hs
  rw [exec_of_unreset (s := s.consume rest) (by simpa using hs) hi] at hexec
  cases hexec

/-! ### Which rows write each element -/

section Elements

variable (i : Instr) (s : State)

/-- No row writes the capacity (R22). -/
@[simp] theorem rowEffect_capacity : (rowEffect i s).capacity = s.capacity := by
  cases i <;> simp [rowEffect, apply_ite State.capacity]

/-- No row writes `P_STRICT_UNLOCK` (D8). -/
@[simp] theorem rowEffect_strictUnlock : (rowEffect i s).strictUnlock = s.strictUnlock := by
  cases i <;> simp [rowEffect, apply_ite State.strictUnlock]

theorem rowEffect_phase : (rowEffect i s).phase = match i with
    | .readId _ | .readArray _ | .idleIgnore _ _ | .rawRead _ | .rawWrite _ _ => s.phase
    | .unlock1Ignore _ _ => if s.strictUnlock then .idle else s.phase
    | .unlock1 => .unlock1
    | .unlock2 => .commandReady
    | .cmdWriteByte | .cmdSelectBank => .extended
    | _ => .idle := by
  cases i <;> simp [rowEffect, apply_ite State.phase]

theorem rowEffect_eraseArmed : (rowEffect i s).eraseArmed = match i with
    | .cmdErase => true
    | .cmdEraseChip | .cmdEraseSector _ | .reset => false
    | _ => s.eraseArmed := by
  cases i <;> simp [rowEffect, apply_ite State.eraseArmed]

theorem rowEffect_writeArmed : (rowEffect i s).writeArmed = match i with
    | .cmdWriteByte => true
    | .extProgram _ _ | .reset => false
    | _ => s.writeArmed := by
  cases i <;> simp [rowEffect, apply_ite State.writeArmed]

theorem rowEffect_bankSelectArmed : (rowEffect i s).bankSelectArmed = match i with
    | .cmdSelectBank => true
    | .extSelectBank _ | .reset => false
    | _ => s.bankSelectArmed := by
  cases i <;> simp [rowEffect, apply_ite State.bankSelectArmed]

theorem rowEffect_identificationMode : (rowEffect i s).identificationMode = match i with
    | .cmdReadChipId => true
    | .cmdFinishChipId | .reset => false
    | _ => s.identificationMode := by
  cases i <;> simp [rowEffect, apply_ite State.identificationMode]

theorem rowEffect_currentBank : (rowEffect i s).currentBank = match i with
    | .extSelectBank v => if s.capacity = .large then bankBit v else s.currentBank
    | .reset => 0#1
    | _ => s.currentBank := by
  cases i <;> simp [rowEffect, apply_ite State.currentBank]

theorem rowEffect_byteAt (hm : Memory.wf s.banks) (j : ArrayIndex) : (rowEffect i s).byteAt j = match i with
    | .cmdEraseChip => if s.eraseArmed ∧ j.toNat < s.capacity.bytes then erased else s.byteAt j
    | .cmdEraseSector n =>
        if s.eraseArmed ∧ (sectorIndex s.currentBank n).toNat ≤ j.toNat ∧
          j.toNat < (sectorIndex s.currentBank n).toNat + sectorSize then erased else s.byteAt j
    | .extProgram a v => if j = s.busIndex a then v else s.byteAt j
    | .rawWrite k v => if j = k then v else s.byteAt j
    | .reset => erased
    | _ => s.byteAt j := by
  cases i with
  | unlock1Ignore | cmdEraseChip | cmdEraseSector =>
    simp [rowEffect, apply_ite (State.byteAt · j), byteAt_eraseBytes, ite_and]
  | extProgram | rawWrite => simp [rowEffect, byteAt_writeByte hm]
  | _ => simp [rowEffect]

end Elements

/-- Settles O17: no row writes either parameter, and taking the request off the stream does not. -/
theorem constructionParametersNeverChange : Obligations.ConstructionParametersNeverChange := by
  intro s t h
  obtain ⟨r, rest, i, -, -, -, rfl⟩ := step_next_rowEffect h
  exact ⟨rowEffect_capacity .., rowEffect_strictUnlock ..⟩

/-! ### The phase -/

/-- A request selects one row only. -/
theorem rowFacts_unique {s : State} {r : Request} {i i' : Instr} (h : rowFacts s r i) (h' : rowFacts s r i') :
    i = i' := by
  simpa [select_of_rowFacts h] using select_of_rowFacts h'

/-- Taking the request off the stream changes nothing a row reads. -/
@[simp] theorem rowFacts_consume {s : State} {rest : List Request} {r : Request} {i : Instr} :
    rowFacts (s.consume rest) r i ↔ rowFacts s r i := by
  rw [← select_eq_ok_iff, consume_select, select_eq_ok_iff]

section Phase

variable {s : State} {r : Request} {i : Instr}

theorem row_of_enters_unlock1 (h : (rowEffect i s).phase = .unlock1) (hne : s.phase ≠ .unlock1) : i = .unlock1 := by
  cases i <;> simp_all [rowEffect_phase, ite_eq_iff]

theorem row_of_enters_commandReady (h : (rowEffect i s).phase = .commandReady) (hne : s.phase ≠ .commandReady) :
    i = .unlock2 := by
  cases i <;> simp_all [rowEffect_phase, ite_eq_iff]

theorem row_of_enters_extended (h : (rowEffect i s).phase = .extended) (hne : s.phase ≠ .extended) :
    i = .cmdWriteByte ∨ i = .cmdSelectBank := by
  cases i <;> simp_all [rowEffect_phase, ite_eq_iff]

/-- Only a Write or RESET changes the phase (R62, R204, R250). -/
theorem write_or_reset_of_phase_ne (hrow : rowFacts s r i) (hne : (rowEffect i s).phase ≠ s.phase) :
    r.kind = kindReset ∨ ∃ a v, r = .write a v := by
  cases i with
  | reset => exact .inl hrow
  | readId | readArray | rawRead | rawWrite => exact absurd (rowEffect_phase _ s) hne
  | unlock1 | unlock2 | cmdReadChipId | cmdFinishChipId | cmdErase | cmdEraseChip | cmdWriteByte | cmdEraseSector =>
    obtain ⟨-, hr⟩ := hrow
    exact .inr ⟨_, _, hr⟩
  | _ =>
    obtain ⟨-, hr, -⟩ := hrow
    exact .inr ⟨_, _, hr⟩

/-- In Unlock1 a Write that is not the second unlock write leaves for Idle under strict mode only (R114, D8). -/
theorem strictUnlock_of_unlock1_to_idle {a : Addr} {v : Byte} (hrow : rowFacts s (.write a v) i)
    (hp : s.phase = .unlock1) (h : (rowEffect i s).phase = .idle) :
    s.strictUnlock = true ∧ ¬ (a = unlockAddr2 ∧ v = unlockData2) := by
  cases hw : isUnlockWrite2 a v with
  | true =>
    obtain ⟨rfl, rfl⟩ := isUnlockWrite2_iff.1 hw
    cases rowFacts_unique hrow (i' := .unlock2) ⟨hp, rfl⟩
    cases h
  | false =>
    cases rowFacts_unique hrow (i' := .unlock1Ignore a v) ⟨hp, rfl, hw⟩
    refine ⟨?_, fun h2 => by simp [isUnlockWrite2_iff.2 h2] at hw⟩
    simpa [rowEffect_phase, hp] using h

/-- A Write in CommandReady that ends in Idle is none of the two that lead to Extended (R130, R135, R136). -/
theorem not_payload_command_of_idle {a : Addr} {v : Byte} (hrow : rowFacts s (.write a v) i)
    (hp : s.phase = .commandReady) (h : (rowEffect i s).phase = .idle) :
    ¬ (a = cmdAddr ∧ (v = codeWriteByte ∨ (v = codeSelectBank ∧ s.capacity = .large))) := by
  rintro ⟨rfl, rfl | ⟨rfl, hcap⟩⟩
  · cases rowFacts_unique hrow (i' := .cmdWriteByte) ⟨hp, rfl⟩
    cases h
  · cases rowFacts_unique hrow (i' := .cmdSelectBank) ⟨hp, rfl, hcap⟩
    cases h

end Phase

/-- Settles O18: the phase a step enters tells its row, and the row tells the phase before and the Write; for Idle, a
Write that selects a row leading elsewhere is ruled out, because a request selects one row only. -/
theorem phaseAdvancesOnlyByTheGrammar : Obligations.PhaseAdvancesOnlyByTheGrammar := by
  intro s t h hne
  obtain ⟨r, rest, i, hreq, hrow, -, rfl⟩ := step_next_rowEffect h
  have hpres : s.presents r := ⟨rest, hreq⟩
  refine ⟨fun ht => ?_, fun ht => ?_, fun ht => ?_, fun ht => ?_⟩
  · cases row_of_enters_unlock1 ht (ht ▸ hne.symm)
    obtain ⟨hp, rfl⟩ := hrow
    exact ⟨hp, hpres⟩
  · cases row_of_enters_commandReady ht (ht ▸ hne.symm)
    obtain ⟨hp, rfl⟩ := hrow
    exact ⟨hp, hpres⟩
  · obtain rfl | rfl := row_of_enters_extended ht (ht ▸ hne.symm)
    · obtain ⟨hp, rfl⟩ := hrow
      exact ⟨hp, .inl hpres⟩
    · obtain ⟨hp, rfl, hcap⟩ := hrow
      exact ⟨hp, .inr ⟨hpres, hcap⟩⟩
  · have hrow' : rowFacts (s.consume rest) r i := rowFacts_consume.2 hrow
    obtain hk | ⟨a, v, rfl⟩ := write_or_reset_of_phase_ne hrow' hne
    · exact .inl ⟨r, hpres, hk⟩
    refine .inr ⟨a, v, hpres, ?_⟩
    cases hp : s.phase with
    | idle => exact absurd (ht.trans hp.symm) hne
    | unlock1 => exact .inr (.inr ⟨rfl, strictUnlock_of_unlock1_to_idle (s := s.consume rest) hrow' hp ht⟩)
    | commandReady => exact .inr (.inl ⟨rfl, not_payload_command_of_idle (s := s.consume rest) hrow' hp ht⟩)
    | extended => exact .inl rfl

/-! ### The armed flags, identification mode and the bank -/

section Flags

variable {i : Instr} {s : State}

theorem row_of_sets_eraseArmed (h : (rowEffect i s).eraseArmed = true) (h0 : s.eraseArmed = false) :
    i = .cmdErase := by
  cases i <;> simp_all [rowEffect_eraseArmed]

theorem row_of_clears_eraseArmed (h : (rowEffect i s).eraseArmed = false) (h0 : s.eraseArmed = true) :
    i = .reset ∨ i = .cmdEraseChip ∨ ∃ n, i = .cmdEraseSector n := by
  cases i <;> simp_all [rowEffect_eraseArmed]

theorem row_of_sets_writeArmed (h : (rowEffect i s).writeArmed = true) (h0 : s.writeArmed = false) :
    i = .cmdWriteByte := by
  cases i <;> simp_all [rowEffect_writeArmed]

theorem row_of_clears_writeArmed (h : (rowEffect i s).writeArmed = false) (h0 : s.writeArmed = true) :
    i = .reset ∨ ∃ a v, i = .extProgram a v := by
  cases i <;> simp_all [rowEffect_writeArmed]

theorem row_of_sets_bankSelectArmed (h : (rowEffect i s).bankSelectArmed = true) (h0 : s.bankSelectArmed = false) :
    i = .cmdSelectBank := by
  cases i <;> simp_all [rowEffect_bankSelectArmed]

theorem row_of_clears_bankSelectArmed (h : (rowEffect i s).bankSelectArmed = false) (h0 : s.bankSelectArmed = true) :
    i = .reset ∨ ∃ v, i = .extSelectBank v := by
  cases i <;> simp_all [rowEffect_bankSelectArmed]

theorem row_of_sets_identificationMode (h : (rowEffect i s).identificationMode = true)
    (h0 : s.identificationMode = false) : i = .cmdReadChipId := by
  cases i <;> simp_all [rowEffect_identificationMode]

theorem row_of_clears_identificationMode (h : (rowEffect i s).identificationMode = false)
    (h0 : s.identificationMode = true) : i = .reset ∨ i = .cmdFinishChipId := by
  cases i <;> simp_all [rowEffect_identificationMode]

theorem row_of_currentBank_ne (h : (rowEffect i s).currentBank ≠ s.currentBank) :
    i = .reset ∨ (s.capacity = .large ∧ ∃ v, i = .extSelectBank v) := by
  cases i <;> simp_all [rowEffect_currentBank]

end Flags

/-- Settles O19: the change of a flag tells the row, and the row's facts are the condition the rule names. -/
theorem armedFlagsChangeOnlyByTheirRules : Obligations.ArmedFlagsChangeOnlyByTheirRules := by
  intro s t h
  obtain ⟨r, rest, i, hreq, hrow, -, rfl⟩ := step_next_rowEffect h
  refine ⟨r, ⟨rest, hreq⟩, fun h0 h1 => ?_, fun h0 h1 => ?_, fun h0 h1 => ?_, fun h0 h1 => ?_, fun h0 h1 => ?_,
    fun h0 h1 => ?_⟩
  · cases row_of_sets_eraseArmed h1 h0
    exact hrow
  · obtain rfl | rfl | ⟨n, rfl⟩ := row_of_clears_eraseArmed h1 h0
    · exact .inl hrow
    · obtain ⟨hp, hr⟩ := hrow
      exact .inr (.inl ⟨hp, h0, hr⟩)
    · obtain ⟨hp, hr⟩ := hrow
      exact .inr (.inr ⟨n, hp, h0, hr⟩)
  · cases row_of_sets_writeArmed h1 h0
    exact hrow
  · obtain rfl | ⟨a, v, rfl⟩ := row_of_clears_writeArmed h1 h0
    · exact .inl hrow
    · obtain ⟨hp, hr, hw⟩ := hrow
      exact .inr ⟨a, v, hp, hw, hr⟩
  · cases row_of_sets_bankSelectArmed h1 h0
    exact hrow
  · obtain rfl | ⟨v, rfl⟩ := row_of_clears_bankSelectArmed h1 h0
    · exact .inl hrow
    · obtain ⟨hp, hr, hw, -⟩ := hrow
      exact .inr ⟨hp, hw, v, hr⟩

/-- Settles O20: as for the armed flags; a payload on a Small device does not write the bank (D10). -/
theorem bankAndModeChangeOnlyByTheirRules : Obligations.BankAndModeChangeOnlyByTheirRules := by
  intro s t h
  obtain ⟨r, rest, i, hreq, hrow, -, rfl⟩ := step_next_rowEffect h
  refine ⟨r, ⟨rest, hreq⟩, fun hne => ?_, fun h0 h1 => ?_, fun h0 h1 => ?_⟩
  · obtain rfl | ⟨hcap, v, rfl⟩ := row_of_currentBank_ne hne
    · exact .inl hrow
    · obtain ⟨hp, hr, hw, hb⟩ := hrow
      exact .inr ⟨hp, hw, hb, hcap, v, hr, (rowEffect_currentBank _ _).trans (if_pos hcap)⟩
  · cases row_of_sets_identificationMode h1 h0
    exact hrow
  · obtain rfl | rfl := row_of_clears_identificationMode h1 h0
    · exact .inl hrow
    · exact .inr hrow

/-! ### The array -/

/-- The bytes of a sector are the indices `{bank, sector, k}` (R54). -/
theorem index_in_sector {b : BitVec 1} {n : BitVec 4} {j : ArrayIndex} (hlo : (sectorIndex b n).toNat ≤ j.toNat)
    (hhi : j.toNat < (sectorIndex b n).toNat + sectorSize) : ∃ k : BitVec 12, j = b ++ n ++ k := by
  refine ⟨j.extractLsb' 0 12, BitVec.eq_of_toNat_eq ?_⟩
  rw [toNat_sectorIndex] at hlo hhi
  have hn : n.toNat < 2 ^ 4 := n.isLt
  have hk : j.toNat % 2 ^ 12 < 2 ^ 12 := Nat.mod_lt _ (by decide)
  rw [BitVec.toNat_append, BitVec.toNat_append, BitVec.extractLsb'_toNat, Nat.shiftRight_zero,
    ← Nat.shiftLeft_add_eq_or_of_lt hn, ← Nat.shiftLeft_add_eq_or_of_lt hk, Nat.shiftLeft_eq, Nat.shiftLeft_eq]
  simp only [sectorSize] at hhi
  omega

/-- The rows that change the byte at `j`, and what each of them needs for it. -/
theorem row_of_byteAt_ne {i : Instr} {s : State} {j : ArrayIndex} (hm : Memory.wf s.banks)
    (h : (rowEffect i s).byteAt j ≠ s.byteAt j) :
    i = .reset ∨ (i = .cmdEraseChip ∧ s.eraseArmed = true) ∨
    (∃ n, i = .cmdEraseSector n ∧ s.eraseArmed = true ∧ ∃ k : BitVec 12, j = s.currentBank ++ n ++ k) ∨
    (∃ a v, i = .extProgram a v ∧ j = s.busIndex a ∧ (rowEffect i s).byteAt j = v) ∨
    (∃ v, i = .rawWrite j v ∧ (rowEffect i s).byteAt j = v) := by
  rw [rowEffect_byteAt i s hm] at h ⊢
  cases i with
  | cmdEraseChip =>
    obtain ⟨⟨harm, -⟩, -⟩ := ite_ne_right_iff.1 h
    exact .inr (.inl ⟨rfl, harm⟩)
  | cmdEraseSector n =>
    obtain ⟨⟨harm, hlo, hhi⟩, -⟩ := ite_ne_right_iff.1 h
    exact .inr (.inr (.inl ⟨n, rfl, harm, index_in_sector hlo hhi⟩))
  | extProgram a v =>
    obtain ⟨hj, -⟩ := ite_ne_right_iff.1 h
    exact .inr (.inr (.inr (.inl ⟨a, v, rfl, hj, if_pos hj⟩)))
  | reset => exact .inl rfl
  | rawWrite k v =>
    obtain ⟨rfl, -⟩ := ite_ne_right_iff.1 h
    exact .inr (.inr (.inr (.inr ⟨v, rfl, if_pos rfl⟩)))
  | _ => exact absurd rfl h

/-- Settles O21: the rows that change a byte (`row_of_byteAt_ne`), each with its request. -/
theorem bytesChangeOnlyByTheirRules : Obligations.BytesChangeOnlyByTheirRules := by
  intro s t j hinv h hne
  obtain ⟨r, rest, i, hreq, hrow, hreset, rfl⟩ := step_next_rowEffect h
  refine ⟨r, ⟨rest, hreq⟩, ?_⟩
  by_cases hi : i = .reset
  · subst hi
    exact .inl hrow
  obtain ⟨-, -, -, -, hwf, -⟩ := hinv (hreset hi)
  obtain rfl | ⟨rfl, harm⟩ | ⟨n, rfl, harm, k, hj⟩ | ⟨a, v, rfl, hj, hv⟩ | ⟨v, rfl, hv⟩ :=
    row_of_byteAt_ne (s := s.consume rest) hwf hne
  · exact .inl hrow
  · obtain ⟨hp, hr⟩ := hrow
    exact .inr (.inl ⟨hp, harm, hr⟩)
  · obtain ⟨hp, hr⟩ := hrow
    exact .inr (.inr (.inl ⟨n, k, ⟨hp, harm, hr⟩, hj⟩))
  · obtain ⟨hp, hr, hw⟩ := hrow
    exact .inr (.inr (.inr (.inl ⟨a, v, ⟨hp, hw, hr⟩, hj, hv⟩)))
  · obtain ⟨hk, haddr, rfl, -⟩ := hrow
    exact .inr (.inr (.inr (.inr ⟨hk, by rw [haddr, toNat_setWidth_index], hv⟩)))

/-! ### Runs -/

/-- What every step keeps holds at the end of every run that starts with it. -/
theorem run_keeps {P : State → Prop} (hstep : ∀ s t, P s → step s = .next t → P t) {k : Nat} {s t : State}
    (hs : P s) (hrun : Sys2Proof.core.run k s = .next t) : P t := by
  induction k generalizing s with
  | zero =>
    rw [run_zero] at hrun
    cases hrun
    exact hs
  | succ k ih =>
    rw [run_succ] at hrun
    cases hst : step s with
    | next u =>
      rw [hst] at hrun
      exact ih (hstep s u hs hst) hrun
    | fault f => simp [hst] at hrun
    | refused f => simp [hst] at hrun

/-- A Small device whose effective bank is 0 (R58). -/
def SmallInBankZero (s : State) : Prop := s.capacity = .small ∧ s.currentBank = 0#1

/-- RESET writes bank 0, and no other row writes the bank of a Small device. -/
theorem step_keeps_smallInBankZero (s t : State) (hs : SmallInBankZero s) (h : step s = .next t) :
    SmallInBankZero t := by
  obtain ⟨hcap, hbank⟩ := hs
  obtain ⟨r, rest, i, -, -, -, rfl⟩ := step_next_rowEffect h
  refine ⟨by simpa using hcap, ?_⟩
  by_contra hne
  obtain rfl | ⟨hlarge, -⟩ := row_of_currentBank_ne (s := s.consume rest) (by simpa [hbank] using hne)
  · exact hne rfl
  · exact absurd (hcap.symm.trans hlarge) (by decide)

/-- Settles O22, by the invariant `SmallInBankZero`. -/
theorem smallDeviceStaysInBankZero : Obligations.SmallDeviceStaysInBankZero := by
  intro strict stream k t hrun
  exact (run_keeps step_keeps_smallInBankZero ⟨rfl, rfl⟩ hrun).2

end Sys2Proof.Proofs.StateRules
end

section
/-! PROOFS. The statements of 20_memory.md: a Read sees only the offset of its address (R52), and a programmed byte is
read back (R53, R63, R65). The steps of a Read, a raw read and a program stand here once, as equations. -/

namespace Sys2Proof.Proofs.MemoryRules

open Sys2Proof Sys2Proof.Machine Sys2Proof.Laws

/-! ### What a Read sees of its address -/

theorem isIdOffset_eq_offsetOf (a : Addr) : isIdOffset a = ((offsetOf a).extractLsb' 1 15 == 0#15) := by
  rw [isIdOffset, offsetOf, BitVec.extractLsb'_extractLsb'_of_le (by decide)]

theorem idByte_eq_offsetOf (a : Addr) : idByte a = (offsetOf a).getLsbD 0 := by
  simp [idByte, offsetOf]

section SameOffset

variable {a b : Addr} (h : offsetOf a = offsetOf b) (s : State)

include h

theorem isIdOffset_congr : isIdOffset a = isIdOffset b := by
  rw [isIdOffset_eq_offsetOf, isIdOffset_eq_offsetOf, h]

theorem busIndex_congr : s.busIndex a = s.busIndex b := by
  rw [State.busIndex, State.busIndex, h]

theorem exec_readId_congr : exec (.readId a) s = exec (.readId b) s := by
  simp only [exec, execReadId, isIdOffset_congr h, idByte_eq_offsetOf, h]

theorem exec_readArray_congr : exec (.readArray a) s = exec (.readArray b) s := by
  simp only [exec, execReadArray, isIdOffset_congr h, busIndex_congr h]

end SameOffset

/-! ### The steps -/

section Steps

variable {s : State} {a : Addr} {rest : List Request}

/-- The row a Read runs (R190, R191). -/
theorem step_of_read (h : s.requests = .read a :: rest) :
    step s = exec (if s.identificationMode && isIdOffset a then .readId a else .readArray a) (s.consume rest) := by
  cases hid : s.identificationMode && isIdOffset a with
  | true => exact step_of_rowFacts h ⟨rfl, rfl, by simpa using hid⟩
  | false => exact step_of_rowFacts h ⟨rfl, rfl, hid⟩

/-- A Read that identification mode does not hide returns the byte of the current bank (R191). -/
theorem step_of_read_array (h : s.requests = .read a :: rest) (hreset : s.isReset = true)
    (hid : (s.identificationMode && isIdOffset a) = false) (hbank : s.currentBank.toNat < s.capacity.numBanks) :
    step s = .next ((s.consume rest).answer (s.byteAt (s.busIndex a))) := by
  rw [step_of_read h, hid]
  exact exec_readArray_next.2 ⟨hreset, hid, hbank, rfl⟩

/-- A raw read inside the image returns its byte (R202). -/
theorem step_of_rawRead {i : ArrayIndex} (h : s.requests = .rawRead i :: rest) (hreset : s.isReset = true)
    (hi : i.toNat < s.capacity.bytes) : step s = .next ((s.consume rest).answer (s.byteAt i)) := by
  rw [step_of_rowFacts h (i := .rawRead i) ⟨rfl, rfl, hi⟩]
  exact exec_rawRead_next.2 ⟨hreset, hi, rfl⟩

/-- The state after the payload of a byte program: the byte replaced, the arm cleared, Idle (R63, R171). -/
def programmed (s : State) (a : Addr) (v : Byte) : State :=
  ((s.writeByte (s.busIndex a) v).setWriteArmed false).setPhase .idle

theorem step_of_program {v : Byte} (h : s.requests = .write a v :: rest) (hreset : s.isReset = true)
    (hphase : s.phase = .extended) (harm : s.writeArmed = true) (hbank : s.currentBank.toNat < s.capacity.numBanks) :
    step s = .next (programmed (s.consume rest) a v) := by
  rw [step_of_rowFacts h (i := .extProgram a v) ⟨hphase, rfl, harm⟩]
  exact exec_extProgram_next.2 ⟨hreset, ⟨hphase, harm⟩, hbank, rfl⟩

/-- The programmed byte stands at its index (R63). -/
theorem programmed_byteAt_busIndex (hwf : Memory.wf s.banks) (v : Byte) :
    (programmed s a v).byteAt (s.busIndex a) = v := by
  simp [programmed, byteAt_writeByte hwf]

end Steps

/-- Settles O26: addresses of the same offset select the same one of the two Read rows, and each row answers alike. -/
theorem readIgnoresTheHighAddressBits : Obligations.ReadIgnoresTheHighAddressBits := by
  intro s a b rest h
  rw [step_of_read rfl, step_of_read rfl, isIdOffset_congr h]
  split
  · exact exec_readId_congr h (s.consume rest)
  · exact exec_readArray_congr h (s.consume rest)

/-- Settles O43: the program leaves the byte at the bus index of its address, which is the index that the second
transaction reads, and it leaves the bank and the identification mode as they are. -/
theorem readAfterProgramReturnsTheByte : Obligations.ReadAfterProgramReturnsTheByte := by
  intro s addr other value rest hreset hinv hphase harm hoffset
  obtain ⟨hbank, -, -, -, hwf, -⟩ := hinv hreset
  have hprog {r : Request} (h : s.requests = .write addr value :: r :: rest) :
      Sys2Proof.core.run 2 s = Sys2Proof.core.run 1 (programmed (s.consume (r :: rest)) addr value) :=
    run_succ_of_next (step_of_program h hreset hphase harm hbank)
  refine ⟨fun hvisible h => ?_, fun h => ?_⟩
  · have hid : (s.identificationMode && isIdOffset other) = false :=
      Bool.and_eq_false_iff.2 (hvisible.imp_right beq_false_of_ne)
    have hread := step_of_read_array (s := programmed (s.consume (.read other :: rest)) addr value) (rest := rest)
      rfl hreset hid hbank
    refine ⟨_, (hprog h).trans (run_succ_of_next hread), ?_⟩
    rw [answer_dataOut, busIndex_congr hoffset]
    exact congrArg some (programmed_byteAt_busIndex hwf value)
  · have hread := step_of_rawRead
      (s := programmed (s.consume (.rawRead (s.busIndex addr) :: rest)) addr value) (rest := rest)
      rfl hreset (busIndex_lt hbank addr)
    refine ⟨_, (hprog h).trans (run_succ_of_next hread), ?_⟩
    exact congrArg some (programmed_byteAt_busIndex hwf value)

end Sys2Proof.Proofs.MemoryRules
end

section
/-! PROOFS. The statements of 30_encoding.md: decode and encode agree in both directions (R81, R82, R86), and the table
reads a Write as the dispatch per phase does (R83, R87). Whether a row is selected is `rowFacts`, which speaks of a
state and a request: a key is a request presented in a phase (`makeKey_fields`), and `stateIn` is a state of that phase
with the context's flags. -/

namespace Sys2Proof.Proofs.Encoding

open Sys2Proof Sys2Proof.Machine Sys2Proof.Laws

/-! ### A key as a request -/

/-- A state in a phase, with what the conditions column reads of it (R86). -/
def stateIn (ctx : DecodeContext) (p : Phase) : State :=
  { State.resetOf ctx.capacity false with
    phase := p
    identificationMode := ctx.identificationMode
    writeArmed := ctx.writeArmed
    bankSelectArmed := ctx.bankSelectArmed }

/-- Decoding a key is selecting the row of its request: the conditions read no more of the state than the context. -/
theorem decode_key_eq_ok_iff {ctx : DecodeContext} {r : Request} {p : Phase} {i : Instr} :
    decode ctx (r.key p) = .ok i ↔ rowFacts (stateIn ctx p) r i :=
  select_eq_ok_iff (s := stateIn ctx p)

/-- Every key is the key of a request in a phase. -/
theorem exists_key_eq (key : Key) : ∃ (r : Request) (p : Phase), r.key p = key :=
  ⟨⟨keyKind key, keyAddr key, keyValue key⟩, Phase.ofCode (keyPhase key), makeKey_fields key⟩

/-! ### From the instruction to the key -/

/-- The key of a well-formed instruction that the context admits is that of a request, in a phase, for which the row's
facts hold. The rows for WRITE fix the phase; the others hold in the phase they are presented in. -/
theorem exists_rowFacts_of_wellFormed (ctx : DecodeContext) (p : Phase) {i : Instr} (hwf : i.wellFormed = true)
    (hadm : i.admitted ctx = true) :
    ∃ (r : Request) (q : Phase), encode p i = r.key q ∧ rowFacts (stateIn ctx q) r i := by
  cases i with
  | readId a => exact ⟨.read a, p, rfl, rfl, rfl, hadm, hwf⟩
  | readArray a =>
    simp only [Instr.admitted, Bool.not_eq_true'] at hadm
    exact ⟨.read a, p, rfl, rfl, rfl, hadm⟩
  | unlock1 => exact ⟨.write unlockAddr1 unlockData1, .idle, rfl, rfl, rfl⟩
  | idleIgnore a v =>
    exact ⟨.write a v, .idle, rfl, rfl, rfl, by simpa only [Instr.wellFormed, Bool.not_eq_true'] using hwf⟩
  | unlock2 => exact ⟨.write unlockAddr2 unlockData2, .unlock1, rfl, rfl, rfl⟩
  | unlock1Ignore a v =>
    exact ⟨.write a v, .unlock1, rfl, rfl, rfl, by simpa only [Instr.wellFormed, Bool.not_eq_true'] using hwf⟩
  | cmdReadChipId => exact ⟨.write cmdAddr codeReadChipId, .commandReady, rfl, rfl, rfl⟩
  | cmdFinishChipId => exact ⟨.write cmdAddr codeFinishChipId, .commandReady, rfl, rfl, rfl⟩
  | cmdErase => exact ⟨.write cmdAddr codeErase, .commandReady, rfl, rfl, rfl⟩
  | cmdEraseChip => exact ⟨.write cmdAddr codeEraseChip, .commandReady, rfl, rfl, rfl⟩
  | cmdWriteByte => exact ⟨.write cmdAddr codeWriteByte, .commandReady, rfl, rfl, rfl⟩
  | cmdSelectBank => exact ⟨.write cmdAddr codeSelectBank, .commandReady, rfl, rfl, rfl, beq_iff_eq.1 hadm⟩
  | cmdSelectBankIgnored => exact ⟨.write cmdAddr codeSelectBank, .commandReady, rfl, rfl, rfl, beq_iff_eq.1 hadm⟩
  | cmdUnknown v =>
    exact ⟨.write cmdAddr v, .commandReady, rfl, rfl, rfl,
      by simpa only [Instr.wellFormed, Bool.not_eq_true'] using hwf⟩
  | cmdEraseSector n => exact ⟨.write (sectorAddr n) sectorEraseData, .commandReady, rfl, rfl, rfl⟩
  | cmdDiscard a v =>
    simp only [Instr.wellFormed, Bool.and_eq_true, bne_iff_ne, Bool.not_eq_true'] at hwf
    exact ⟨.write a v, .commandReady, rfl, rfl, rfl, hwf⟩
  | extProgram a v => exact ⟨.write a v, .extended, rfl, rfl, rfl, hadm⟩
  | extSelectBank v =>
    simp only [Instr.admitted, Bool.and_eq_true, Bool.not_eq_true'] at hadm
    exact ⟨.write bankSelectAddr v, .extended, rfl, rfl, rfl, hadm⟩
  | extDiscard a v =>
    simp only [Instr.admitted, Bool.and_eq_true, Bool.not_eq_true'] at hadm
    exact ⟨.write a v, .extended, rfl, rfl, rfl, hadm⟩
  | reset => exact ⟨.reset, p, rfl, rfl⟩
  | rawRead n => exact ⟨.rawRead n, p, rfl, rfl, rfl, of_decide_eq_true hadm⟩
  | rawWrite n v => exact ⟨.rawWrite n v, p, rfl, rfl, rfl, rfl, of_decide_eq_true hadm⟩

/-- Settles O1: the key is that of a request for which the instruction's row facts hold, and those select the row. -/
theorem decodeEncodeRoundTrip : Obligations.DecodeEncodeRoundTrip := by
  intro ctx p i hwf hadm
  obtain ⟨r, q, hkey, hrow⟩ := exists_rowFacts_of_wellFormed ctx p hwf hadm
  rw [hkey]
  exact decode_key_eq_ok_iff.2 hrow

/-! ### From the key to the instruction -/

section SelectedRow

variable {s : State} {r : Request} {i : Instr} (h : rowFacts s r i)

include h

/-- The operands of a selected row are its own. -/
theorem wellFormed_of_rowFacts : i.wellFormed = true := by
  cases i with
  | readId a => obtain ⟨-, -, -, hid⟩ := h; exact hid
  | idleIgnore a v | unlock1Ignore a v | cmdUnknown v => obtain ⟨-, -, hnot⟩ := h; simp [Instr.wellFormed, hnot]
  | cmdDiscard a v => obtain ⟨-, -, haddr, hnot⟩ := h; simp [Instr.wellFormed, haddr, hnot]
  | _ => rfl

/-- The state that selects a row admits it. -/
theorem admitted_of_rowFacts : i.admitted s.context = true := by
  cases i with
  | readId a => obtain ⟨-, -, hmode, -⟩ := h; exact hmode
  | readArray a => obtain ⟨-, -, hnot⟩ := h; simp [Instr.admitted, hnot]
  | cmdSelectBank | cmdSelectBankIgnored => obtain ⟨-, -, hcap⟩ := h; simp [Instr.admitted, hcap]
  | extProgram a v => obtain ⟨-, -, harm⟩ := h; exact harm
  | extSelectBank v => obtain ⟨-, -, hnot, harm⟩ := h; simp [Instr.admitted, hnot, harm]
  | extDiscard a v => obtain ⟨-, -, hnot, hsel⟩ := h; simp [Instr.admitted, hnot, hsel]
  | rawRead n => obtain ⟨-, -, hn⟩ := h; exact decide_eq_true hn
  | rawWrite n v => obtain ⟨-, -, -, hn⟩ := h; exact decide_eq_true hn
  | _ => rfl

end SelectedRow

/-- Settles O2: the key is that of a request, and the facts of the row it selects hold the row's operands and conditions
and exclude the rows before it. -/
theorem decodedInstructionIsOfItsOwnRow : Obligations.DecodedInstructionIsOfItsOwnRow := by
  intro ctx key i hdec
  obtain ⟨r, p, rfl⟩ := exists_key_eq key
  have hrow : rowFacts (stateIn ctx p) r i := decode_key_eq_ok_iff.1 hdec
  exact ⟨wellFormed_of_rowFacts hrow, admitted_of_rowFacts hrow⟩

/-! ### The dispatch per phase

Each answer of the dispatch is well-formed, the context admits it, and the Write's key encodes it; so the round trip
says that the key decodes to it. -/

section Dispatch

variable (ctx : DecodeContext) (a : Addr) (v : Byte)

/-- Idle (R111, R112). -/
theorem decode_write_idle_eq_dispatch :
    decode ctx (makeKey kindWrite .idle a v) = .ok (writeDispatch ctx .idle a v) := by
  simp only [writeDispatch]
  split
  case isTrue h =>
    obtain ⟨rfl, rfl⟩ := h
    exact decodeEncodeRoundTrip ctx .idle .unlock1 rfl rfl
  case isFalse h =>
    have hwf : (Instr.idleIgnore a v).wellFormed = true := by
      rw [Instr.wellFormed, Bool.not_eq_true', ← Bool.not_eq_true, isUnlockWrite1_iff]; exact h
    exact decodeEncodeRoundTrip ctx .idle (.idleIgnore a v) hwf rfl

/-- Unlock1 (R113, R114). -/
theorem decode_write_unlock1_eq_dispatch :
    decode ctx (makeKey kindWrite .unlock1 a v) = .ok (writeDispatch ctx .unlock1 a v) := by
  simp only [writeDispatch]
  split
  case isTrue h =>
    obtain ⟨rfl, rfl⟩ := h
    exact decodeEncodeRoundTrip ctx .unlock1 .unlock2 rfl rfl
  case isFalse h =>
    have hwf : (Instr.unlock1Ignore a v).wellFormed = true := by
      rw [Instr.wellFormed, Bool.not_eq_true', ← Bool.not_eq_true, isUnlockWrite2_iff]; exact h
    exact decodeEncodeRoundTrip ctx .unlock1 (.unlock1Ignore a v) hwf rfl

/-- The command map at `CMD_ADDR` (R87). -/
theorem decode_write_cmdAddr_eq_commandAt :
    decode ctx (makeKey kindWrite .commandReady cmdAddr v) = .ok (commandAt ctx.capacity v) := by
  unfold commandAt
  split_ifs with h10 h80 h90 hA0 hB0 hF0
  · subst h10; exact decodeEncodeRoundTrip ctx .commandReady .cmdEraseChip rfl rfl
  · subst h80; exact decodeEncodeRoundTrip ctx .commandReady .cmdErase rfl rfl
  · subst h90; exact decodeEncodeRoundTrip ctx .commandReady .cmdReadChipId rfl rfl
  · subst hA0; exact decodeEncodeRoundTrip ctx .commandReady .cmdWriteByte rfl rfl
  · subst hB0
    cases hcap : ctx.capacity with
    | large => exact decodeEncodeRoundTrip ctx .commandReady .cmdSelectBank rfl (beq_iff_eq.2 hcap)
    | small => exact decodeEncodeRoundTrip ctx .commandReady .cmdSelectBankIgnored rfl (beq_iff_eq.2 hcap)
  · subst hF0; exact decodeEncodeRoundTrip ctx .commandReady .cmdFinishChipId rfl rfl
  · have hwf : (Instr.cmdUnknown v).wellFormed = true := by
      simp [Instr.wellFormed, isCommandCode, codeEraseChip, codeErase, codeReadChipId, codeWriteByte, codeSelectBank,
        codeFinishChipId, h10, h80, h90, hA0, hB0, hF0]
    exact decodeEncodeRoundTrip ctx .commandReady (.cmdUnknown v) hwf rfl

/-- CommandReady (R131 to R140). -/
theorem decode_write_commandReady_eq_dispatch :
    decode ctx (makeKey kindWrite .commandReady a v) = .ok (writeDispatch ctx .commandReady a v) := by
  simp only [writeDispatch]
  split_ifs with haddr hsector
  · subst haddr
    exact decode_write_cmdAddr_eq_commandAt ctx v
  · obtain ⟨hmatch, rfl⟩ := hsector
    have ha : a = sectorAddr (sectorOf a) := (sectorMatch_iff a).1 (beq_iff_eq.2 hmatch)
    rw [ha, sectorOf_sectorAddr]
    exact decodeEncodeRoundTrip ctx .commandReady (.cmdEraseSector (sectorOf a)) rfl rfl
  · have hwf : (Instr.cmdDiscard a v).wellFormed = true := by
      simp only [Instr.wellFormed, Bool.and_eq_true, bne_iff_ne, Bool.not_eq_true', isSectorEraseWrite,
        ← sectorMask_test]
      exact ⟨haddr, by simpa [sectorEraseData] using hsector⟩
    exact decodeEncodeRoundTrip ctx .commandReady (.cmdDiscard a v) hwf rfl

/-- Extended (R171 to R174). -/
theorem decode_write_extended_eq_dispatch :
    decode ctx (makeKey kindWrite .extended a v) = .ok (writeDispatch ctx .extended a v) := by
  simp only [writeDispatch]
  split_ifs with hwrite hselect
  · exact decodeEncodeRoundTrip ctx .extended (.extProgram a v) rfl hwrite
  · obtain ⟨hbank, rfl⟩ := hselect
    have hadm : (Instr.extSelectBank v).admitted ctx = true := by simp [Instr.admitted, hwrite, hbank]
    exact decodeEncodeRoundTrip ctx .extended (.extSelectBank v) rfl hadm
  · have hadm : (Instr.extDiscard a v).admitted ctx = true := by
      simpa [Instr.admitted, hwrite, bankSelectAddr, imp_iff_not_or] using hselect
    exact decodeEncodeRoundTrip ctx .extended (.extDiscard a v) rfl hadm

end Dispatch

/-- Settles O4, phase by phase. -/
theorem tableDecodesWritesByPhaseDispatch : Obligations.TableDecodesWritesByPhaseDispatch := by
  intro ctx p a v
  cases p with
  | idle => exact decode_write_idle_eq_dispatch ctx a v
  | unlock1 => exact decode_write_unlock1_eq_dispatch ctx a v
  | commandReady => exact decode_write_commandReady_eq_dispatch ctx a v
  | extended => exact decode_write_extended_eq_dispatch ctx a v

/-- Settles O5: each word is the key of its instruction, which is well-formed and admitted in the word's context. -/
theorem sampleWordsDecode : Obligations.SampleWordsDecode :=
  ⟨decodeEncodeRoundTrip _ .idle (.readId 0x0E000001#32) rfl rfl,
   decodeEncodeRoundTrip _ .idle (.readArray 0x0E000002#32) rfl rfl,
   decodeEncodeRoundTrip _ .idle .unlock1 rfl rfl,
   decodeEncodeRoundTrip _ .commandReady .cmdReadChipId rfl rfl,
   decodeEncodeRoundTrip _ .commandReady (.cmdEraseSector 3#4) rfl rfl,
   decodeEncodeRoundTrip _ .extended (.extProgram 0x0E000010#32 0x5A#8) rfl rfl,
   decodeEncodeRoundTrip _ .extended (.extSelectBank 0x01#8) rfl rfl,
   decodeEncodeRoundTrip _ .idle .reset rfl rfl,
   decodeEncodeRoundTrip _ .idle (.rawRead 0x10010#17) rfl rfl,
   decodeEncodeRoundTrip _ .idle (.rawWrite 0x00100#17 0x42#8) rfl rfl⟩

end Sys2Proof.Proofs.Encoding
end

section
/-! PROOFS. The statements of 40_unlock.md: what a Write in the Idle phase does (R111, R112). The two rows of the phase
stand here as equations of the step, one each. -/

namespace Sys2Proof.Proofs.UnlockRules

open Sys2Proof Sys2Proof.Machine Sys2Proof.Laws

section Idle

variable {s : State} {rest : List Request} (hreset : s.isReset = true) (hphase : s.phase = .idle)

include hreset hphase

/-- The first unlock write (R111). -/
theorem step_of_unlockWrite1 (h : s.requests = .write unlockAddr1 unlockData1 :: rest) :
    step s = .next ((s.consume rest).setPhase .unlock1) := by
  rw [step_of_rowFacts h (i := .unlock1) ⟨hphase, rfl⟩]
  exact exec_unlock1_next.2 ⟨hreset, hphase, rfl⟩

/-- Any other Write in Idle is only consumed (R112). -/
theorem step_of_otherWrite_idle {a : Addr} {v : Byte} (h : s.requests = .write a v :: rest)
    (hother : isUnlockWrite1 a v = false) : step s = .next (s.consume rest) := by
  rw [step_of_rowFacts h (i := .idleIgnore a v) ⟨hphase, rfl, hother⟩]
  exact exec_idleIgnore_next.2 ⟨hreset, ⟨hphase, hother⟩, rfl⟩

end Idle

/-- Settles O28: the Write is the first unlock write, on all its address bits, or it is not, and each case is a row of
its own. -/
theorem writeInIdle : Obligations.WriteInIdle := by
  intro s addr value rest hreset hphase h
  split
  case isTrue hunlock =>
    obtain ⟨rfl, rfl⟩ := hunlock
    exact step_of_unlockWrite1 hreset hphase h
  case isFalse hother =>
    exact step_of_otherWrite_idle hreset hphase h (Bool.eq_false_of_not_eq_true (mt isUnlockWrite1_iff.1 hother))

end Sys2Proof.Proofs.UnlockRules
end

section
/-! PROOFS. The statements of 41_commands.md: a Write in CommandReady runs one command and leaves the phase (R130 to
R140). What the rows of the phase do is stated first (`flagCommandMeaningsComplete`, `eraseMeaningsComplete`); a Write's
step runs the row that the dispatch per phase gives (`step_of_write`), so the statements about steps follow from them. -/

namespace Sys2Proof.Proofs.CommandRules

open Sys2Proof Sys2Proof.Machine Sys2Proof.Laws Sys2Proof.Proofs.StateRules Sys2Proof.Proofs.Encoding
open Sys2Proof.Proofs.Scope

/-! ### The rows that do not erase -/

/-- The command table at `CMD_ADDR`, its values written out (R87). -/
theorem isCommandCode_iff {v : Byte} :
    isCommandCode v = true ↔ v ∈ [0x10#8, 0x80#8, 0x90#8, 0xA0#8, 0xB0#8, 0xF0#8] := by
  simp [isCommandCode, codeEraseChip, codeErase, codeReadChipId, codeWriteByte, codeSelectBank, codeFinishChipId,
    or_assoc]

/-- The sector-erase write, its mask and values written out (R139). -/
theorem isSectorEraseWrite_iff_mask {a : Addr} {v : Byte} :
    isSectorEraseWrite a v = true ↔ a &&& 0xFFFF0FFF#32 = 0x0E000000#32 ∧ v = 0x30#8 := by
  simp [isSectorEraseWrite, ← sectorMask_test, sectorEraseData]

/-- Settles O32, row by row. -/
theorem flagCommandMeaningsComplete : Obligations.FlagCommandMeaningsComplete := by
  intro s addr value hreset hphase
  refine ⟨exec_cmdReadChipId_next.2 ⟨hreset, hphase, rfl⟩, exec_cmdFinishChipId_next.2 ⟨hreset, hphase, rfl⟩,
    exec_cmdErase_next.2 ⟨hreset, hphase, rfl⟩, exec_cmdWriteByte_next.2 ⟨hreset, hphase, rfl⟩,
    fun hcap => exec_cmdSelectBank_next.2 ⟨hreset, ⟨hphase, hcap⟩, rfl⟩,
    fun hcap => exec_cmdSelectBankIgnored_next.2 ⟨hreset, ⟨hphase, hcap⟩, rfl⟩, fun hvalue => ?_, fun haddr hother => ?_⟩
  · have hcode : isCommandCode value = false := Bool.eq_false_of_not_eq_true (mt isCommandCode_iff.1 hvalue)
    exact exec_cmdUnknown_next.2 ⟨hreset, ⟨hphase, hcode⟩, rfl⟩
  · have hsector : isSectorEraseWrite addr value = false :=
      Bool.eq_false_of_not_eq_true (mt isSectorEraseWrite_iff_mask.1 hother)
    exact exec_cmdDiscard_next.2 ⟨hreset, ⟨hphase, haddr, hsector⟩, rfl⟩

/-! ### The erases -/

/-- The state after an armed erase of the `n` bytes from `start` on (R134, R139). -/
def eraseArmedRange (s : State) (start n : Nat) : State := ((s.eraseBytes start n).setEraseArmed false).setPhase .idle

theorem byteAt_eraseArmedRange (s : State) (start n : Nat) (j : ArrayIndex) :
    (eraseArmedRange s start n).byteAt j = if start ≤ j.toNat ∧ j.toNat < start + n then erased else s.byteAt j := by
  rw [eraseArmedRange, setPhase_byteAt, setEraseArmed_byteAt, byteAt_eraseBytes]

/-- Settles O33: an armed erase leaves `eraseArmedRange`, whose bytes are `erased` in the range and the old ones outside;
an unarmed one only sets the phase. -/
theorem eraseMeaningsComplete : Obligations.EraseMeaningsComplete := by
  intro s sector hreset hphase
  refine ⟨fun harm => ⟨exec_cmdEraseChip_next.2 ⟨hreset, hphase, .inr ⟨harm, rfl⟩⟩,
    exec_cmdEraseSector_next.2 ⟨hreset, hphase, .inr ⟨harm, rfl⟩⟩⟩, fun harm => ?chip, fun harm hbank => ?sector⟩
  case chip =>
    refine ⟨eraseArmedRange s 0 s.capacity.bytes, exec_cmdEraseChip_next.2 ⟨hreset, hphase, .inl ⟨harm, rfl⟩⟩,
      fun j hj => ?_, fun j hj => ?_, rfl⟩
    · exact (byteAt_eraseArmedRange ..).trans (if_pos ⟨j.toNat.zero_le, by omega⟩)
    · exact (byteAt_eraseArmedRange ..).trans (if_neg (by omega))
  case sector =>
    refine ⟨eraseArmedRange s (sectorIndex s.currentBank sector).toNat sectorSize,
      exec_cmdEraseSector_next.2 ⟨hreset, hphase, .inl ⟨harm, hbank, rfl⟩⟩, fun j hlo hhi => ?_, fun j hj => ?_, rfl⟩
    · exact (byteAt_eraseArmedRange ..).trans (if_pos ⟨hlo, hhi⟩)
    · exact (byteAt_eraseArmedRange ..).trans (if_neg hj)

/-- A byte of a sector, `{bank, sector, k}`, stands `k` after the sector's first index (R54). -/
theorem toNat_sectorByte (b : BitVec 1) (n : BitVec 4) (k : BitVec 12) :
    (b ++ n ++ k).toNat = (sectorIndex b n).toNat + k.toNat := by
  rw [sectorIndex, BitVec.toNat_append (b ++ n) k, BitVec.toNat_append (b ++ n) 0#12,
    ← Nat.shiftLeft_add_eq_or_of_lt k.isLt]
  simp

/-- The indices of a sector are exactly the `{bank, sector, k}` (R54). -/
theorem index_in_sector_iff {b : BitVec 1} {n : BitVec 4} {j : ArrayIndex} :
    (sectorIndex b n).toNat ≤ j.toNat ∧ j.toNat < (sectorIndex b n).toNat + 4096 ↔ ∃ k : BitVec 12, j = b ++ n ++ k := by
  constructor
  · rintro ⟨hlo, hhi⟩
    exact index_in_sector hlo hhi
  · rintro ⟨k, rfl⟩
    have hk : k.toNat < 4096 := k.isLt
    rw [toNat_sectorByte]
    omega

/-! ### The steps -/

/-- A Write runs the row that the dispatch gives in the state's phase (R83). -/
theorem step_of_write {s : State} {a : Addr} {v : Byte} {rest : List Request} (h : s.requests = .write a v :: rest) :
    step s = exec (writeDispatch s.context s.phase a v) (s.consume rest) :=
  step_of_select h (tableDecodesWritesByPhaseDispatch s.context s.phase a v)

/-- A Write at `CMD_ADDR` in CommandReady runs the row of the command map (R87). -/
theorem step_of_write_cmdAddr {s : State} {v : Byte} {rest : List Request} (hphase : s.phase = .commandReady)
    (h : s.requests = .write 0x0E005555#32 v :: rest) :
    step s = exec (commandAt s.capacity v) (s.consume rest) := by
  rw [step_of_write h, hphase]
  rfl

/-- Settles O34: each byte's row of the command map, with its meaning. -/
theorem commandWriteAtCmdAddr : Obligations.CommandWriteAtCmdAddr := by
  intro s value rest hreset hphase h h10
  obtain ⟨hreadChipId, hfinishChipId, herase, hwriteByte, hselectBank, hselectIgnored, hunknown, -⟩ :=
    flagCommandMeaningsComplete (s.consume rest) 0x0E005555#32 value hreset hphase
  rw [step_of_write_cmdAddr hphase h]
  split_ifs with h90 hF0 h80 hA0 hB0
  · subst h90; exact hreadChipId
  · subst hF0; exact hfinishChipId
  · subst h80; exact herase
  · subst hA0; exact hwriteByte
  · obtain ⟨rfl, hcap⟩ := hB0
    have hrow : commandAt s.capacity 0xB0#8 = .cmdSelectBank := by rw [hcap]; rfl
    rw [hrow]; exact hselectBank hcap
  · by_cases hsel : value = 0xB0#8
    · subst hsel
      have hcap : s.capacity = .small := by
        cases hc : s.capacity with
        | small => rfl
        | large => exact absurd ⟨rfl, hc⟩ hB0
      have hrow : commandAt s.capacity 0xB0#8 = .cmdSelectBankIgnored := by rw [hcap]; rfl
      rw [hrow]; exact hselectIgnored hcap
    · have hrow : commandAt s.capacity value = .cmdUnknown value := by
        simp [commandAt, h10, h80, h90, hA0, hsel, hF0]
      rw [hrow]; exact hunknown (by simp [h10, h80, h90, hA0, hsel, hF0])

/-- Settles O35: the row is CMD_ERASE_CHIP, armed or not. -/
theorem chipEraseWrite : Obligations.ChipEraseWrite := by
  intro s rest hreset hphase h
  obtain ⟨hunarmed, harmed, -⟩ := eraseMeaningsComplete (s.consume rest) 0#4 hreset hphase
  rw [show step s = exec .cmdEraseChip (s.consume rest) from step_of_write_cmdAddr hphase h]
  cases harm : s.eraseArmed with
  | true =>
    obtain ⟨t, hexec, herased, -, ht⟩ := harmed harm
    exact ⟨t, hexec, fun _ => herased, nofun, ht⟩
  | false =>
    obtain ⟨hexec, -⟩ := hunarmed harm
    exact ⟨_, hexec, nofun, fun _ _ => rfl, by rw [← harm]; rfl⟩

/-- Settles O36: the row is CMD_ERASE_SECTOR of the address's sector, whose range is the bytes `{currentBank, sector, k}`
(`index_in_sector_iff`). -/
theorem sectorEraseWrite : Obligations.SectorEraseWrite := by
  intro s addr rest hreset hphase hbank hsector h
  have hcmd : addr ≠ 0x0E005555#32 := by rintro rfl; exact absurd hsector (by decide)
  have hstep : step s = exec (.cmdEraseSector (sectorOf addr)) (s.consume rest) := by
    rw [step_of_write h, hphase, writeDispatch, if_neg hcmd, if_pos ⟨hsector, rfl⟩]
  obtain ⟨hunarmed, -, harmed⟩ := eraseMeaningsComplete (s.consume rest) (sectorOf addr) hreset hphase
  rw [hstep]
  cases harm : s.eraseArmed with
  | true =>
    obtain ⟨t, hexec, herased, hkept, ht⟩ := harmed harm hbank
    refine ⟨t, hexec, fun _ => ⟨fun k => ?_, fun j hj => ?_⟩, nofun, ht⟩
    · obtain ⟨hlo, hhi⟩ := index_in_sector_iff.2 ⟨k, rfl⟩
      exact herased _ hlo hhi
    · exact hkept j fun hin => (index_in_sector_iff.1 hin).elim hj
  | false =>
    obtain ⟨-, hexec⟩ := hunarmed harm
    exact ⟨_, hexec, nofun, fun _ _ => rfl, by rw [← harm]; rfl⟩

/-- Settles O37: the dispatch leaves the Write to CMD_DISCARD. -/
theorem otherWriteInCommandReadyIsDiscarded : Obligations.OtherWriteInCommandReadyIsDiscarded := by
  intro s addr value rest hreset hphase h hcmd hother
  obtain ⟨-, -, -, -, -, -, -, hdiscard⟩ :=
    flagCommandMeaningsComplete (s.consume rest) addr value hreset hphase
  rw [step_of_write h, hphase, writeDispatch, if_neg hcmd, if_neg hother]
  exact hdiscard hcmd hother

/-! ### The phase after a Write in CommandReady -/

/-- Of the commands, WriteByte and SelectBank on a Large device go to Extended (R135, R136). -/
theorem commandAt_phase (c : Capacity) (v : Byte) (s : State) :
    (rowEffect (commandAt c v) s).phase =
      if v = 0xA0#8 ∨ (v = 0xB0#8 ∧ c = .large) then .extended else .idle := by
  by_cases hA0 : v = 0xA0#8
  · subst hA0; rfl
  by_cases hB0 : v = 0xB0#8
  · subst hB0; cases c <;> rfl
  · rw [if_neg (not_or.2 ⟨hA0, fun h => hB0 h.1⟩)]
    unfold commandAt
    split_ifs <;> exact rowEffect_phase _ s

/-- Settles O38: the row that ran is the dispatch's, and only two rows of CommandReady do not go to Idle. -/
theorem commandReadyConsumesExactlyOneWrite : Obligations.CommandReadyConsumesExactlyOneWrite := by
  rintro s t addr value hphase ⟨rest, hreq⟩ hstep
  rw [step_of_write hreq, hphase] at hstep
  rw [eq_rowEffect_of_exec hstep, writeDispatch]
  by_cases hcmd : addr = 0x0E005555#32
  · simp only [hcmd, if_true, true_and]
    exact commandAt_phase ..
  · rw [if_neg hcmd, if_neg (mt And.left hcmd)]
    split_ifs <;> exact rowEffect_phase ..

end Sys2Proof.Proofs.CommandRules
end

section
/-! PROOFS. The statements of 42_extended.md: a Write in Extended is the payload of a program or of a bank select, or is
discarded (R171 to R174). The meanings of the three rows come first (`payloadMeaningsComplete`); a Write's step runs the
row whose facts hold (`step_of_rowFacts`), so the statements about steps follow from them. -/

namespace Sys2Proof.Proofs.ExtendedRules

open Sys2Proof Sys2Proof.Machine Sys2Proof.Laws Sys2Proof.Proofs.MemoryRules

/-- A program changes no byte but the one at the bus index of its address (R63, R53). -/
theorem programmed_byteAt_of_ne {s : State} {a : Addr} {j : ArrayIndex} (hwf : Memory.wf s.banks) (v : Byte)
    (hj : j ≠ s.busIndex a) : (programmed s a v).byteAt j = s.byteAt j := by
  rw [programmed, setPhase_byteAt, setWriteArmed_byteAt, byteAt_writeByte hwf, if_neg hj]

/-- The bank-select payload, its address written out (R172). -/
theorem isBankSelectWrite_eq_false_iff {s : State} {a : Addr} :
    (s.bankSelectArmed && a == bankSelectAddr) = false ↔ ¬ (s.bankSelectArmed = true ∧ a = 0x0E000000#32) := by
  rw [← Bool.not_eq_true, Bool.and_eq_true, beq_iff_eq, bankSelectAddr]

/-- Settles O39, row by row: EXT_PROGRAM leaves `programmed`, the other two the state their equations say. -/
theorem payloadMeaningsComplete : Obligations.PayloadMeaningsComplete := by
  intro s addr value hreset hphase
  refine ⟨fun harm hinv => ?program, fun harm hselect => ?select, fun harm hother => ?discard⟩
  case program =>
    obtain ⟨hbank, -, -, -, hwf, -⟩ := hinv hreset
    exact ⟨programmed s addr value, exec_extProgram_next.2 ⟨hreset, ⟨hphase, harm⟩, hbank, rfl⟩,
      programmed_byteAt_busIndex hwf value, fun _ hj => programmed_byteAt_of_ne hwf value hj, rfl⟩
  case select => exact exec_extSelectBank_next.2 ⟨hreset, ⟨hphase, harm, hselect⟩, rfl⟩
  case discard =>
    exact exec_extDiscard_next.2 ⟨hreset, ⟨hphase, harm, isBankSelectWrite_eq_false_iff.2 hother⟩, rfl⟩

/-- Settles O40: the phase and `writeArmed` select EXT_PROGRAM, whatever `bankSelectArmed` is. -/
theorem programPayloadWrite : Obligations.ProgramPayloadWrite := by
  intro s addr value rest hreset hinv hphase harm h
  obtain ⟨hprogram, -, -⟩ := payloadMeaningsComplete (s.consume rest) addr value hreset hphase
  rw [step_of_rowFacts h (i := .extProgram addr value) ⟨hphase, rfl, harm⟩]
  exact hprogram harm hinv

/-- Settles O42: without `writeArmed`, a Write that is no bank-select payload selects EXT_DISCARD. -/
theorem otherPayloadWriteIsDiscarded : Obligations.OtherPayloadWriteIsDiscarded := by
  intro s addr value rest hreset hphase harm hother h
  obtain ⟨-, -, hdiscard⟩ := payloadMeaningsComplete (s.consume rest) addr value hreset hphase
  rw [step_of_rowFacts h (i := .extDiscard addr value)
    ⟨hphase, rfl, harm, isBankSelectWrite_eq_false_iff.2 hother⟩]
  exact hdiscard harm hother

end Sys2Proof.Proofs.ExtendedRules
end

section
/-! PROOFS. The statements of 43_read.md: a Read returns an identifier byte or the array byte of the current bank, and
changes nothing else (R190, R191). The identifier test and the identifier byte are read off the offset first. -/

namespace Sys2Proof.Proofs.ReadRules

open Sys2Proof Sys2Proof.Machine Sys2Proof.Laws Sys2Proof.Proofs.MemoryRules

/-! ### The identifier read, by the offset -/

/-- The test `address[15:1] == 0` names the offsets 0 and 1 (R84, R190). -/
theorem isIdOffset_iff {a : Addr} : isIdOffset a = true ↔ offsetOf a = 0#16 ∨ offsetOf a = 1#16 := by
  have hlt := (offsetOf a).isLt
  rw [isIdOffset_eq_offsetOf, beq_iff_eq]
  simp only [← BitVec.toNat_inj, BitVec.extractLsb'_toNat, BitVec.toNat_ofNat, Nat.shiftRight_eq_div_pow]
  omega

/-- At an identifier offset, the first identifier byte stands at offset 0 and the second at offset 1 (R190). -/
theorem identifierByte_idByte {a : Addr} (h : isIdOffset a = true) (c : Capacity) :
    identifierByte c (idByte a) = if offsetOf a = 0#16 then identifierByte c false else identifierByte c true := by
  rw [idByte_eq_offsetOf]
  obtain h | h := isIdOffset_iff.1 h <;> rw [h] <;> rfl

/-- In identification mode a Read at an identifier offset returns the identifier byte (R190). -/
theorem step_of_read_id {s : State} {a : Addr} {rest : List Request} (h : s.requests = .read a :: rest)
    (hreset : s.isReset = true) (hmode : s.identificationMode = true) (hid : isIdOffset a = true) :
    step s = .next ((s.consume rest).answer (identifierByte s.capacity (idByte a))) := by
  rw [step_of_rowFacts h (i := .readId a) ⟨rfl, rfl, hmode, hid⟩]
  exact exec_readId_next.2 ⟨hreset, ⟨hmode, hid⟩, rfl⟩

/-! ### The statements -/

/-- Settles O23: the two offsets are the identifier test of READ_ID, and its negation is that of READ_ARRAY. -/
theorem readMeaningsComplete : Obligations.ReadMeaningsComplete := by
  intro s addr hreset
  refine ⟨fun hmode hoffset => ?readId, fun hnot hbank => ?readArray⟩
  case readId =>
    have hid : isIdOffset addr = true := isIdOffset_iff.2 hoffset
    refine (exec_readId_next.2 ⟨hreset, ⟨hmode, hid⟩, rfl⟩).trans (congrArg (Host.Outcome.next <| s.answer ·) ?_)
    rw [identifierByte_idByte hid]
    cases s.capacity <;> rfl
  case readArray =>
    have hid : (s.identificationMode && isIdOffset addr) = false := by
      rwa [← Bool.not_eq_true, Bool.and_eq_true, isIdOffset_iff]
    exact exec_readArray_next.2 ⟨hreset, hid, hbank, rfl⟩

/-- Settles O24: identification mode and the offset alone select one of the two Read rows, in every phase, and each
row's step is an equation of its own. -/
theorem readReturnsIdentifierOrArrayByte : Obligations.ReadReturnsIdentifierOrArrayByte := by
  intro s addr rest hreset hbank h
  split
  case isTrue hselect =>
    obtain ⟨hmode, hoffset⟩ := hselect
    have hid : isIdOffset addr = true := beq_iff_eq.2 hoffset
    refine (step_of_read_id h hreset hmode hid).trans (congrArg (Host.Outcome.next <| (s.consume rest).answer ·) ?_)
    rw [identifierByte_idByte hid]
    cases s.capacity <;> rfl
  case isFalse hnot =>
    have hid : (s.identificationMode && isIdOffset addr) = false := by
      rwa [← Bool.not_eq_true, Bool.and_eq_true, isIdOffset, beq_iff_eq]
    exact step_of_read_array h hreset hid hbank

end Sys2Proof.Proofs.ReadRules
end

section
/-! PROOFS. The statement of 60_exceptions.md: the block raises no exception, so every transaction completes (R220). A
transaction selects a row (`exists_rowFacts_of_isTransaction`); a selected row's meaning answers where the block has
been reset and `currentBank` is a bank (`exec_eq_rowEffect`); and no row writes the stream or clears the mark of the
first RESET. -/

namespace Sys2Proof.Proofs.ExceptionRules

open Sys2Proof Sys2Proof.Machine Sys2Proof.Laws Sys2Proof.Proofs.StateRules Sys2Proof.Proofs.Encoding

/-! ### A transaction selects a row -/

/-- A request is a transaction if its kind is one of the three that need no index, or it is raw and its index is in
range (R80, R88, R209). -/
theorem isTransaction_iff {c : Capacity} {r : Request} :
    r.isTransaction c = true ↔ r.kind = kindRead ∨ r.kind = kindWrite ∨ r.kind = kindReset ∨
      ((r.kind = kindRawRead ∨ r.kind = kindRawWrite) ∧ r.address.toNat < c.bytes) := by
  simp [Request.isTransaction, or_assoc]

/-- Every transaction selects a row, in every state (R82). -/
theorem exists_rowFacts_of_isTransaction {s : State} {r : Request} (h : r.isTransaction s.capacity = true) :
    ∃ i, rowFacts s r i := by
  simp only [← select_eq_ok_iff, select_eq]
  obtain hk | hk | hk | ⟨hk | hk, hrange⟩ := isTransaction_iff.1 h <;> rw [hk]
  · exact ⟨_, decode_read ..⟩
  · exact ⟨_, tableDecodesWritesByPhaseDispatch ..⟩
  · exact ⟨_, decode_reset ..⟩
  · exact ⟨_, (decode_rawRead ..).trans (if_pos hrange)⟩
  · exact ⟨_, (decode_rawWrite ..).trans (if_pos hrange)⟩

/-! ### A selected row completes -/

/-- After the first RESET, with `currentBank` a bank of the array, the meaning of the selected row answers its effect:
what a meaning asks of the state is what its row's facts say. -/
theorem exec_eq_rowEffect {s : State} {r : Request} {i : Instr} (hreset : s.isReset = true)
    (hbank : s.currentBank.toNat < s.capacity.numBanks) (h : rowFacts s r i) : exec i s = .next (rowEffect i s) := by
  cases i with
  | readId a => obtain ⟨-, -, hid⟩ := h; exact exec_readId_next.2 ⟨hreset, hid, rfl⟩
  | readArray a => obtain ⟨-, -, hnot⟩ := h; exact exec_readArray_next.2 ⟨hreset, hnot, hbank, rfl⟩
  | unlock1 => obtain ⟨hp, -⟩ := h; exact exec_unlock1_next.2 ⟨hreset, hp, rfl⟩
  | idleIgnore a v => obtain ⟨hp, -, hnot⟩ := h; exact exec_idleIgnore_next.2 ⟨hreset, ⟨hp, hnot⟩, rfl⟩
  | unlock2 => obtain ⟨hp, -⟩ := h; exact exec_unlock2_next.2 ⟨hreset, hp, rfl⟩
  | unlock1Ignore a v =>
    obtain ⟨hp, -, hnot⟩ := h
    refine exec_unlock1Ignore_next.2 ⟨hreset, ⟨hp, hnot⟩, ?_⟩
    cases hstrict : s.strictUnlock <;> simp [rowEffect, hstrict]
  | cmdReadChipId => obtain ⟨hp, -⟩ := h; exact exec_cmdReadChipId_next.2 ⟨hreset, hp, rfl⟩
  | cmdFinishChipId => obtain ⟨hp, -⟩ := h; exact exec_cmdFinishChipId_next.2 ⟨hreset, hp, rfl⟩
  | cmdErase => obtain ⟨hp, -⟩ := h; exact exec_cmdErase_next.2 ⟨hreset, hp, rfl⟩
  | cmdEraseChip =>
    obtain ⟨hp, -⟩ := h
    refine exec_cmdEraseChip_next.2 ⟨hreset, hp, ?_⟩
    cases harm : s.eraseArmed <;> simp [rowEffect, harm]
  | cmdWriteByte => obtain ⟨hp, -⟩ := h; exact exec_cmdWriteByte_next.2 ⟨hreset, hp, rfl⟩
  | cmdSelectBank => obtain ⟨hp, -, hcap⟩ := h; exact exec_cmdSelectBank_next.2 ⟨hreset, ⟨hp, hcap⟩, rfl⟩
  | cmdSelectBankIgnored => obtain ⟨hp, -, hcap⟩ := h; exact exec_cmdSelectBankIgnored_next.2 ⟨hreset, ⟨hp, hcap⟩, rfl⟩
  | cmdUnknown v => obtain ⟨hp, -, hnot⟩ := h; exact exec_cmdUnknown_next.2 ⟨hreset, ⟨hp, hnot⟩, rfl⟩
  | cmdEraseSector n =>
    obtain ⟨hp, -⟩ := h
    refine exec_cmdEraseSector_next.2 ⟨hreset, hp, ?_⟩
    cases harm : s.eraseArmed <;> simp [rowEffect, harm, hbank]
  | cmdDiscard a v => obtain ⟨hp, -, hnot⟩ := h; exact exec_cmdDiscard_next.2 ⟨hreset, ⟨hp, hnot⟩, rfl⟩
  | extProgram a v => obtain ⟨hp, -, harm⟩ := h; exact exec_extProgram_next.2 ⟨hreset, ⟨hp, harm⟩, hbank, rfl⟩
  | extSelectBank v => obtain ⟨hp, -, harm⟩ := h; exact exec_extSelectBank_next.2 ⟨hreset, ⟨hp, harm⟩, rfl⟩
  | extDiscard a v => obtain ⟨hp, -, hnot⟩ := h; exact exec_extDiscard_next.2 ⟨hreset, ⟨hp, hnot⟩, rfl⟩
  | reset => exact exec_reset_next.2 rfl
  | rawRead n => obtain ⟨-, -, hn⟩ := h; exact exec_rawRead_next.2 ⟨hreset, hn, rfl⟩
  | rawWrite n v => obtain ⟨-, -, -, hn⟩ := h; exact exec_rawWrite_next.2 ⟨hreset, hn, rfl⟩

/-! ### What a row leaves of the stream and the mark -/

/-- No row writes the transaction stream (log 1). -/
@[simp] theorem rowEffect_requests (i : Instr) (s : State) : (rowEffect i s).requests = s.requests := by
  cases i <;> simp [rowEffect, apply_ite State.requests]

/-- No row clears the mark that the first RESET has happened (log 4). -/
theorem rowEffect_isReset_of_isReset (i : Instr) {s : State} (h : s.isReset = true) :
    (rowEffect i s).isReset = true := by
  cases i <;> simp [rowEffect, apply_ite State.isReset, h]

/-! ### The statement -/

/-- Settles O8: the transaction selects a row, and the invariant gives the bank that the row's meaning asks for, so the
meaning answers the row's effect, which is the step. -/
theorem everyTransactionCompletes : Obligations.EveryTransactionCompletes := by
  intro s r rest hinv hreset hreq htrans
  obtain ⟨hbank, -⟩ := hinv hreset
  obtain ⟨i, hrow⟩ := exists_rowFacts_of_isTransaction htrans
  have hexec : exec i (s.consume rest) = .next (rowEffect i (s.consume rest)) :=
    exec_eq_rowEffect hreset hbank (rowFacts_consume.2 hrow)
  exact ⟨i, rowEffect i (s.consume rest), select_of_rowFacts hrow, hexec, (step_of_rowFacts hreq hrow).trans hexec,
    rowEffect_requests .., rowEffect_isReset_of_isReset i hreset⟩

end Sys2Proof.Proofs.ExceptionRules
end

section
/-! PROOFS. The statements of 70_reset_and_hazards.md: RESET (R250 to R253), Unlock1 that waits for its second write
(R258), and the chip erase as a whole (R257, R261). The two rows of Unlock1 stand here as equations of the step, with
strict mode off; a command with its own unlock is one equation of the run (`run_unlockedCommand`). -/

namespace Sys2Proof.Proofs.ResetAndHazards

open Sys2Proof Sys2Proof.Machine Sys2Proof.Laws Sys2Proof.Proofs.UnlockRules Sys2Proof.Proofs.CommandRules

/-! ### RESET -/

/-- Settles O44: RESET asks nothing of the state, and the array it leaves is empty, so every index reads as erased. -/
theorem resetMeaningCompletes : Obligations.ResetMeaningCompletes := by
  intro s
  refine ⟨exec_reset_next.2 rfl, fun t hexec j => ?_⟩
  rw [exec_reset_next.1 hexec]
  exact byteAt_applyReset s j

/-- Settles O45: a RESET request selects its row in every state, and what the row leaves of the state before it is the
construction parameters and the stream. -/
theorem resetAlwaysReachesTheResetState : Obligations.ResetAlwaysReachesTheResetState := by
  intro s rest h
  have hstep : step s = .next (s.consume rest).applyReset := by
    rw [step_of_rowFacts h (i := .reset) rfl]
    exact exec_reset_next.2 rfl
  exact ⟨hstep, byteAt_applyReset (s.consume rest)⟩

/-! ### Unlock1 -/

/-- The state in which a command Write runs: CommandReady, with the unlock writes off the stream (R113, R115). -/
def unlocked (s : State) (rest : List Request) : State := (s.consume rest).setPhase .commandReady

section Unlock1

variable {s : State} {rest : List Request} (hreset : s.isReset = true) (hphase : s.phase = .unlock1)

include hreset hphase

/-- The second unlock write (R113). -/
theorem step_of_unlockWrite2 (h : s.requests = .write unlockAddr2 unlockData2 :: rest) :
    step s = .next (unlocked s rest) := by
  rw [step_of_rowFacts h (i := .unlock2) ⟨hphase, rfl⟩]
  exact exec_unlock2_next.2 ⟨hreset, hphase, rfl⟩

/-- With strict mode off, any other Write in Unlock1 is only consumed (R114). -/
theorem step_of_otherWrite_unlock1 {a : Addr} {v : Byte} (hstrict : s.strictUnlock = false)
    (h : s.requests = .write a v :: rest) (hother : isUnlockWrite2 a v = false) :
    step s = .next (s.consume rest) := by
  rw [step_of_rowFacts h (i := .unlock1Ignore a v) ⟨hphase, rfl, hother⟩]
  exact exec_unlock1Ignore_next.2 ⟨hreset, ⟨hphase, hother⟩, .inr ⟨hstrict, rfl⟩⟩

end Unlock1

/-- Settles O31, by induction on the wrong Writes: each one is only consumed, so the state the next one meets differs
from the first in the stream and the port only. -/
theorem unlock1IsSticky : Obligations.Unlock1IsSticky := by
  intro s wrong rest hreset hphase hstrict hwrong h
  induction wrong generalizing s with
  | nil => exact run_succ_of_next (step_of_unlockWrite2 hreset hphase h)
  | cons w wrong ih =>
    obtain ⟨hw, hwrong⟩ := List.forall_mem_cons.1 hwrong
    have hother : isUnlockWrite2 w.1 w.2 = false :=
      Bool.eq_false_of_not_eq_true fun hw2 => hw (Prod.ext_iff.2 (isUnlockWrite2_iff.1 hw2))
    exact (run_succ_of_next (step_of_otherWrite_unlock1 hreset hphase hstrict h hother)).trans
      (ih (s.consume _) hreset hphase hstrict hwrong rfl)

/-! ### The chip erase as a whole -/

/-- From Idle, a command byte with its own unlock runs the command's row in the unlocked state (R115, R87). -/
theorem run_unlockedCommand {s t : State} {v : Byte} {rest : List Request} {k : Nat} (hreset : s.isReset = true)
    (hphase : s.phase = .idle)
    (h : s.requests = .write 0x0E005555#32 0xAA#8 :: .write 0x0E002AAA#32 0x55#8 :: .write 0x0E005555#32 v :: rest)
    (hexec : exec (commandAt s.capacity v) (unlocked s rest) = .next t) :
    Sys2Proof.core.run (k + 3) s = Sys2Proof.core.run k t :=
  calc Sys2Proof.core.run (k + 3) s
      = Sys2Proof.core.run (k + 2) ((s.consume _).setPhase .unlock1) :=
        run_succ_of_next (step_of_unlockWrite1 hreset hphase h)
    _ = Sys2Proof.core.run (k + 1) (unlocked _ (.write 0x0E005555#32 v :: rest)) :=
        run_succ_of_next (step_of_unlockWrite2 hreset rfl rfl)
    _ = Sys2Proof.core.run k t := run_succ_of_next ((step_of_write_cmdAddr rfl rfl).trans hexec)

/-- The state after an unlocked command 0x80: Idle, with the erase armed (R133). -/
def erasePrimed (s : State) (rest : List Request) : State := ((unlocked s rest).setEraseArmed true).setPhase .idle

/-- From Idle, the command 0x80 with its own unlock arms the erase (R133). -/
theorem run_eraseCommand {s : State} {rest : List Request} {k : Nat} (hreset : s.isReset = true)
    (hphase : s.phase = .idle)
    (h : s.requests =
      .write 0x0E005555#32 0xAA#8 :: .write 0x0E002AAA#32 0x55#8 :: .write 0x0E005555#32 0x80#8 :: rest) :
    Sys2Proof.core.run (k + 3) s = Sys2Proof.core.run k (erasePrimed s rest) :=
  run_unlockedCommand hreset hphase h (exec_cmdErase_next.2 ⟨hreset, rfl, rfl⟩)

/-- Settles O53: the command 0x80 arms the erase and goes back to Idle, where the second unlock starts; the command 0x10
then erases if it is armed, and only sets the phase if it is not. -/
theorem chipEraseNeedsItsArm : Obligations.ChipEraseNeedsItsArm := by
  intro s rest hreset hphase
  refine ⟨fun h => ?armed, fun hunarmed h => ?unarmed⟩
  case armed =>
    obtain ⟨-, herase, -⟩ := eraseMeaningsComplete (unlocked (erasePrimed s _) rest) 0#4 hreset rfl
    obtain ⟨t, hchip, hbytes, -, ht⟩ := herase rfl
    have hrun : Sys2Proof.core.run 6 s = .next t :=
      calc Sys2Proof.core.run 6 s
          = Sys2Proof.core.run 3 (erasePrimed s _) := run_eraseCommand hreset hphase h
        _ = Sys2Proof.core.run 0 t := run_unlockedCommand hreset rfl rfl hchip
        _ = .next t := run_zero t
    refine ⟨t, hrun, hbytes, ?_⟩
    rw [ht]
    exact ⟨rfl, rfl, rfl, rfl⟩
  case unarmed =>
    obtain ⟨hkeep, -⟩ := eraseMeaningsComplete (unlocked s rest) 0#4 hreset rfl
    obtain ⟨hchip, -⟩ := hkeep hunarmed
    rw [run_unlockedCommand hreset hphase h hchip, run_zero, ← hphase]
    rfl

end Sys2Proof.Proofs.ResetAndHazards
end

section
/-! PROOFS. The decode rule (30_encoding.md R82): which keys select a row, and that the row is one. A key that decodes
has a first row (`exists_firstRow_of_decode`), and a key that does not has none (`not_selects_of_decode_error`). -/

namespace Sys2Proof.Proofs.DecodeRule

open Sys2Proof Sys2Proof.Machine Sys2Proof.Laws Sys2Proof.Proofs.Encoding Sys2Proof.Proofs.ExceptionRules

section Rows

variable {ctx : DecodeContext} {key : Key}

theorem selects_iff {row : Row} :
    row.selects ctx key = true ↔ key &&& row.mask = row.pattern ∧ row.condition.holds ctx key = true := by
  rw [Row.selects, Bool.and_eq_true, beq_iff_eq]

/-- The instruction a key decodes to is built by the first row that the key selects. -/
theorem find_of_decode {i : Instr} (h : decode ctx key = .ok i) :
    ∃ row, decodeTable.find? (fun row => row.selects ctx key) = some row ∧ row.build key = i := by
  unfold decode at h
  split at h
  · next row hfind => exact ⟨row, hfind, by simpa using h⟩
  · split at h <;> cases h

/-- A key that does not decode selects no row. -/
theorem not_selects_of_decode_error {e : DecodeError} (h : decode ctx key = .error e) :
    ∀ row ∈ decodeTable, row.selects ctx key = false := by
  unfold decode at h
  split at h
  · cases h
  · next hfind => exact fun row hrow => Bool.eq_false_of_not_eq_true (List.find?_eq_none.1 hfind row hrow)

/-- The row of a key that decodes, by its index: it is selected, and no earlier row is. -/
theorem exists_firstRow_of_decode {i : Instr} (h : decode ctx key = .ok i) :
    ∃ (n : Nat) (row : Row), decodeTable[n]? = some row ∧ row.selects ctx key = true ∧
      (∀ m < n, ∀ r : Row, decodeTable[m]? = some r → r.selects ctx key ≠ true) ∧ row.build key = i := by
  obtain ⟨row, hfind, hbuild⟩ := find_of_decode h
  obtain ⟨hsel, n, hn, hrow, hearlier⟩ := List.find?_eq_some_iff_getElem.1 hfind
  refine ⟨n, row, List.getElem?_eq_some_iff.2 ⟨hn, hrow⟩, hsel, fun m hm r hr => ?_, hbuild⟩
  obtain ⟨-, rfl⟩ := List.getElem?_eq_some_iff.1 hr
  simpa using hearlier m hm

/-- A key of kind 000 to 100 decodes, but for a raw index outside the array (R82, R209). -/
theorem exists_decode_eq_ok (hkind : (keyKind key).toNat ≤ 4)
    (hrange : (keyKind key).toNat ≤ 2 ∨ (keyAddr key).toNat < ctx.capacity.bytes) : ∃ i, decode ctx key = .ok i := by
  have kinds : ∀ k : BitVec 3, k.toNat ≤ 4 → k = kindRead ∨ k = kindWrite ∨ k = kindReset ∨
      ((k = kindRawRead ∨ k = kindRawWrite) ∧ ¬ k.toNat ≤ 2) := by decide
  obtain ⟨r, p, rfl⟩ := exists_key_eq key
  simp only [Request.key, keyKind_makeKey, keyAddr_makeKey] at hkind hrange
  have htrans : r.isTransaction (stateIn ctx p).capacity = true :=
    isTransaction_iff.2 <| (kinds r.kind hkind).imp_right <| Or.imp_right <| Or.imp_right fun ⟨hraw, hnot⟩ =>
      ⟨hraw, hrange.resolve_left hnot⟩
  obtain ⟨i, hrow⟩ := exists_rowFacts_of_isTransaction htrans
  exact ⟨i, decode_key_eq_ok_iff.2 hrow⟩

/-- A raw key whose index is outside the array (R209). -/
theorem decode_rawOutOfRange (hkind : keyKind key = kindRawRead ∨ keyKind key = kindRawWrite)
    (hrange : ctx.capacity.bytes ≤ (keyAddr key).toNat) : decode ctx key = .error .rawIndexOutOfRange := by
  obtain ⟨r, p, rfl⟩ := exists_key_eq key
  simp only [Request.key, keyKind_makeKey, keyAddr_makeKey] at hkind hrange ⊢
  obtain hk | hk := hkind <;> rw [hk]
  · exact (decode_rawRead ..).trans (if_neg (Nat.not_lt.2 hrange))
  · exact (decode_rawWrite ..).trans (if_neg (Nat.not_lt.2 hrange))

end Rows

/-- Settles O3: a key that decodes has a first row, and two first rows are the same, since neither comes before the
other; a raw key out of range does not decode. -/
theorem keySelectsExactlyOneFirstRow : Obligations.KeySelectsExactlyOneFirstRow := by
  intro ctx key hkind
  simp only [← selects_iff]
  refine ⟨fun hrange => ?one, fun hraw hout => ?none⟩
  case one =>
    obtain ⟨i, hdec⟩ := exists_decode_eq_ok hkind hrange
    obtain ⟨n, row, hn, hsel, hfirst, hbuild⟩ := exists_firstRow_of_decode hdec
    refine ⟨n, ⟨row, hn, hsel, hfirst, hbuild ▸ hdec⟩, fun n' ⟨row', hn', hsel', hfirst', _⟩ => ?_⟩
    obtain hlt | heq | hgt := lt_trichotomy n' n
    · exact absurd hsel' (hfirst n' hlt row' hn')
    · exact heq
    · exact absurd hsel (hfirst' n hgt row hn)
  case none =>
    have kinds : ∀ k : BitVec 3, k.toNat ≤ 4 → 3 ≤ k.toNat → k = kindRawRead ∨ k = kindRawWrite := by decide
    have hdec := decode_rawOutOfRange (kinds _ hkind hraw) hout
    exact fun row hrow => Bool.eq_false_iff.1 (not_selects_of_decode_error hdec row hrow)

end Sys2Proof.Proofs.DecodeRule
end

section
/-! PROOFS. When there is no step: a request that is no transaction (R88, R209), none at all (log 3), and, before the
first RESET, every request but RESET (70_reset_and_hazards.md R254, R255). -/

namespace Sys2Proof.Proofs.Refusals

open Sys2Proof Sys2Proof.Machine Sys2Proof.Laws Sys2Proof.Proofs.ExceptionRules Sys2Proof.Proofs.DecodeRule
open Sys2Proof.Proofs.ResetAndHazards

/-! ### Requests that are no transactions -/

/-- A request that selects no row is refused under the decoder's reason. -/
theorem step_of_select_error {s : State} {r : Request} {rest : List Request} {e : DecodeError}
    (h : s.requests = r :: rest) (he : s.select r = .error e) : step s = .refused (DecodeError.refusal e) := by
  rw [step_of_requests h, he]

/-- Settles O9: the key does not decode, so no row is selected. -/
theorem rawIndexOutOfRangeIsRefused : Obligations.RawIndexOutOfRangeIsRefused := by
  intro s r rest h hkind hrange
  have hdec : s.select r = .error .rawIndexOutOfRange :=
    decode_rawOutOfRange (by rwa [Request.key, keyKind_makeKey]) (by rwa [Request.key, keyAddr_makeKey])
  exact ⟨not_selects_of_decode_error hdec, step_of_select_error h hdec⟩

/-- Settles O10: the three kinds lie above the five that the table lists. -/
theorem unusedKindsAreRefused : Obligations.UnusedKindsAreRefused := by
  intro s r rest h hkind
  have hk : 4 < r.kind.toNat := by obtain hk | hk | hk := hkind <;> rw [hk] <;> decide
  exact step_of_select_error h (decode_otherKind s.context r.kind s.phase r.address r.value hk)

/-- Settles O12: a step begins by taking the oldest request. -/
theorem noPendingTransactionNoStep : Obligations.NoPendingTransactionNoStep := by
  intro s h
  rw [step, State.nextRequest, h]

/-! ### Before the first RESET -/

section Unreset

variable {s : State} {r : Request} {rest : List Request}

/-- A RESET request runs in every state, whatever its unused fields hold (R250, log 11). -/
theorem step_of_resetKind (h : s.requests = r :: rest) (hk : r.kind = kindReset) :
    step s = .next (s.consume rest).applyReset :=
  (step_of_rowFacts h (i := .reset) hk).trans (exec_reset_next.2 rfl)

/-- Before the first RESET a request that selects a row other than RESET's is refused (R254). -/
theorem step_of_unreset {i : Instr} (hreset : s.isReset = false) (h : s.requests = r :: rest)
    (hk : r.kind ≠ kindReset) (hrow : rowFacts s r i) : step s = .refused .beforeFirstReset := by
  rw [step_of_rowFacts h hrow]
  refine exec_of_unreset (s := s.consume rest) hreset ?_
  rintro rfl
  exact hk hrow

end Unreset

/-- Settles O11: RESET's row asks nothing of the state, and before the first RESET no other row runs; a request that
selects no row is refused as no transaction. -/
theorem onlyResetRunsBeforeTheFirstReset : Obligations.OnlyResetRunsBeforeTheFirstReset := by
  intro s r rest hreset h
  refine ⟨fun hk => ⟨_, step_of_resetKind h hk, rfl⟩, fun hk htrans => ?_, fun hk => ?_⟩
  · obtain ⟨i, hrow⟩ := exists_rowFacts_of_isTransaction htrans
    exact step_of_unreset hreset h hk hrow
  · cases hsel : s.select r with
    | error e => exact ⟨_, step_of_select_error h hsel⟩
    | ok i => exact ⟨_, step_of_unreset hreset h hk (rowFacts_of_select hsel)⟩

/-- Settles O54: construction leaves the mark of the first RESET unset, and the rest is O11 and O45. -/
theorem constructedBlockStartsUnreset : Obligations.ConstructedBlockStartsUnreset := by
  intro c strict content r rest
  refine ⟨rfl, rfl, rfl, ?_, ?_, fun hk htrans => ?_⟩
  · obtain ⟨hstep, -⟩ := resetAlwaysReachesTheResetState
      { State.constructed c strict content with requests := .reset :: rest } rest rfl
    exact hstep
  · obtain ⟨hstep, -⟩ := resetAlwaysReachesTheResetState { State.start content with requests := [.reset] } [] rfl
    exact hstep
  · obtain ⟨-, hrefused, -⟩ := onlyResetRunsBeforeTheFirstReset
      { State.constructed c strict content with requests := r :: rest } r rest rfl rfl
    exact hrefused hk htrans

end Sys2Proof.Proofs.Refusals
end

section
/-! PROOFS. The state invariant (10_state.md R31 to R33, log 10): the reset state meets it, every row keeps each of its
clauses, and so every step and every run does. From it follow that no step faults (60_exceptions.md R220) and that a bus
access reaches a byte of the array (20_memory.md R50, R57). -/

namespace Sys2Proof.Proofs.Invariant

open Sys2Proof Sys2Proof.Machine Sys2Proof.Laws Sys2Proof.Proofs.StateRules Sys2Proof.Proofs.ExceptionRules
open Sys2Proof.Proofs.Refusals

/-! ### The reset state -/

theorem numBanks_pos (c : Capacity) : 0 < c.numBanks := by cases c <;> decide

/-- RESET leaves a legal state, whatever the state before it (R250). -/
theorem legal_applyReset (s : State) : s.applyReset.Legal :=
  ⟨numBanks_pos s.capacity, nofun, nofun, nofun, wf_nil, nofun⟩

/-- Settles O13: the reset state is what RESET leaves, of any parameters. -/
theorem resetMeetsTheInvariant : Obligations.ResetMeetsTheInvariant :=
  ⟨fun _ => legal_applyReset State.reset, fun c strict => legal_applyReset (State.resetOf c strict)⟩

/-! ### Each row keeps each clause -/

section Rows

variable {s : State} {r : Request} {i : Instr}

/-- `currentBank` stays a bank of the array (R31): a Large device has both values of its one bit. -/
theorem rowEffect_keeps_bank (h : s.currentBank.toNat < s.capacity.numBanks) :
    (rowEffect i s).currentBank.toNat < (rowEffect i s).capacity.numBanks := by
  rw [rowEffect_capacity]
  by_cases hne : (rowEffect i s).currentBank = s.currentBank
  · rwa [hne]
  · obtain rfl | ⟨hcap, -⟩ := row_of_currentBank_ne hne
    · exact numBanks_pos s.capacity
    · rw [hcap]
      exact BitVec.isLt _

/-- `writeArmed` still needs Extended (R32): the rows that leave Extended with it set are EXT_PROGRAM and RESET, and
both clear it. -/
theorem rowEffect_keeps_writeArmed (hrow : rowFacts s r i) (h : s.writeArmed = true → s.phase = .extended)
    (hw : (rowEffect i s).writeArmed = true) : (rowEffect i s).phase = .extended := by
  cases hs : s.writeArmed with
  | false => cases row_of_sets_writeArmed hw hs; rfl
  | true =>
    by_contra hp
    obtain hk | ⟨a, v, rfl⟩ := write_or_reset_of_phase_ne hrow (h hs ▸ hp)
    · cases rowFacts_unique hrow (i' := .reset) hk
      cases hw
    · cases rowFacts_unique hrow (i' := .extProgram a v) ⟨h hs, rfl, hs⟩
      cases hw

/-- Extended still needs an armed flag (R32): the rows that enter it set one, and the rows that clear one leave it. -/
theorem rowEffect_keeps_extended (h : s.phase = .extended → s.writeArmed = true ∨ s.bankSelectArmed = true)
    (hp : (rowEffect i s).phase = .extended) :
    (rowEffect i s).writeArmed = true ∨ (rowEffect i s).bankSelectArmed = true := by
  by_cases hs : s.phase = .extended
  · refine (h hs).imp (fun hw => ?write) (fun hb => ?select)
    case write =>
      by_contra hclear
      obtain rfl | ⟨a, v, rfl⟩ := row_of_clears_writeArmed (Bool.eq_false_of_not_eq_true hclear) hw <;> cases hp
    case select =>
      by_contra hclear
      obtain rfl | ⟨v, rfl⟩ := row_of_clears_bankSelectArmed (Bool.eq_false_of_not_eq_true hclear) hb <;> cases hp
  · obtain rfl | rfl := row_of_enters_extended hp hs
    · exact .inl rfl
    · exact .inr rfl

/-- `bankSelectArmed` still needs a Large device (R33). -/
theorem rowEffect_keeps_bankSelectArmed (hrow : rowFacts s r i) (h : s.bankSelectArmed = true → s.capacity = .large)
    (hb : (rowEffect i s).bankSelectArmed = true) : (rowEffect i s).capacity = .large := by
  rw [rowEffect_capacity]
  cases hs : s.bankSelectArmed with
  | true => exact h hs
  | false =>
    cases row_of_sets_bankSelectArmed hb hs
    obtain ⟨-, -, hcap⟩ := hrow
    exact hcap

/-- What a row makes of the array: nothing, an erase, one write inside it, or the empty list of RESET. -/
theorem rowEffect_banks_cases (hrow : rowFacts s r i) (hbank : s.currentBank.toNat < s.capacity.numBanks) :
    (rowEffect i s).banks = s.banks ∨ (∃ start n, (rowEffect i s).banks = memErase s.banks start n) ∨
    (∃ k v, k < s.capacity.bytes ∧ (rowEffect i s).banks = memWrite s.banks k v) ∨ (rowEffect i s).banks = [] := by
  cases i with
  | unlock1Ignore => exact .inl (by simp [rowEffect, apply_ite State.banks])
  | cmdEraseChip | cmdEraseSector =>
    cases harm : s.eraseArmed with
    | true => exact .inr (.inl ⟨_, _, by simp only [rowEffect, harm, if_true]; rfl⟩)
    | false => exact .inl (by simp [rowEffect, harm])
  | extProgram a v => exact .inr (.inr (.inl ⟨_, v, busIndex_lt hbank a, rfl⟩))
  | rawWrite k v =>
    obtain ⟨-, -, -, hk⟩ := hrow
    exact .inr (.inr (.inl ⟨_, v, hk, rfl⟩))
  | reset => exact .inr (.inr (.inr rfl))
  | _ => exact .inl rfl

/-- The array stays canonical and inside its bytes (log 10). -/
theorem rowEffect_keeps_banks (hrow : rowFacts s r i) (hbank : s.currentBank.toNat < s.capacity.numBanks)
    (hwf : Memory.wf s.banks) (hin : Memory.within s.banks s.capacity.bytes) :
    Memory.wf (rowEffect i s).banks ∧ Memory.within (rowEffect i s).banks (rowEffect i s).capacity.bytes := by
  rw [rowEffect_capacity]
  obtain h | ⟨start, n, h⟩ | ⟨k, v, hk, h⟩ | h := rowEffect_banks_cases hrow hbank <;> rw [h]
  · exact ⟨hwf, hin⟩
  · exact ⟨wf_memErase hwf start n, within_memErase hin start n⟩
  · exact ⟨wf_memWrite hwf k v, within_memWrite hin hk⟩
  · exact ⟨wf_nil, nofun⟩

/-- A selected row takes a legal state to a legal state. -/
theorem legal_rowEffect (hrow : rowFacts s r i) (h : s.Legal) : (rowEffect i s).Legal := by
  obtain ⟨hbank, hwrite, hext, hselect, hwf, hin⟩ := h
  exact ⟨rowEffect_keeps_bank hbank, rowEffect_keeps_writeArmed hrow hwrite, rowEffect_keeps_extended hext,
    rowEffect_keeps_bankSelectArmed hrow hselect, rowEffect_keeps_banks hrow hbank hwf hin⟩

end Rows

/-! ### Every step and every run keeps it -/

/-- Settles O14: a step is a selected row's effect, which keeps each clause of a legal state; before the first RESET
only RESET runs, and it leaves a legal state from any. -/
theorem stepKeepsTheInvariant : Obligations.StepKeepsTheInvariant := by
  intro s t hinv h _
  obtain ⟨r, rest, i, -, hrow, hreset, rfl⟩ := step_next_rowEffect h
  by_cases hi : i = .reset
  · subst hi
    exact legal_applyReset (s.consume rest)
  · exact legal_rowEffect (s := s.consume rest) (rowFacts_consume.2 hrow) (hinv (hreset hi))

/-- A block that has been reset and is legal, on the device of the given construction parameters. -/
def RunningAs (c : Capacity) (strict : Bool) (s : State) : Prop :=
  s.isReset = true ∧ s.Legal ∧ s.capacity = c ∧ s.strictUnlock = strict

theorem step_keeps_runningAs {c : Capacity} {strict : Bool} (s t : State) (hs : RunningAs c strict s)
    (h : step s = .next t) : RunningAs c strict t := by
  obtain ⟨hreset, hlegal, hcap, hstrict⟩ := hs
  obtain ⟨hcap', hstrict'⟩ := constructionParametersNeverChange s t h
  have hreset' : t.isReset = true := by
    obtain ⟨r, rest, i, -, -, -, rfl⟩ := step_next_rowEffect h
    exact rowEffect_isReset_of_isReset i hreset
  exact ⟨hreset', stepKeepsTheInvariant s t (fun _ => hlegal) h hreset', hcap'.trans hcap, hstrict'.trans hstrict⟩

/-- RESET makes the block run as it was constructed (R252). -/
theorem runningAs_applyReset (s : State) : RunningAs s.capacity s.strictUnlock s.applyReset :=
  ⟨rfl, legal_applyReset s, rfl, rfl⟩

/-- Settles O15, by the invariant `RunningAs`. -/
theorem reachableStatesAreLegal : Obligations.ReachableStatesAreLegal := by
  intro c strict stream k t hrun
  obtain ⟨-, ⟨hbank, hwrite, hext, hselect, -, -⟩, rfl, -⟩ :=
    run_keeps step_keeps_runningAs (runningAs_applyReset { State.resetOf c strict with requests := stream }) hrun
  exact ⟨hbank, hwrite, hext, hselect, rfl⟩

/-- A run of one step or more that answers: its first step, and the rest of the run. -/
theorem run_succ_eq_next {k : Nat} {s t : State} (h : Sys2Proof.core.run (k + 1) s = .next t) :
    ∃ u, step s = .next u ∧ Sys2Proof.core.run k u = .next t := by
  rw [run_succ] at h
  cases hs : step s with
  | next u => rw [hs] at h; exact ⟨u, rfl, h⟩
  | fault f | refused f => rw [hs] at h; cases h

/-- Settles O55: only RESET runs on a block that was never reset, so the first step is one, and from there on
`RunningAs` is kept. -/
theorem startedBlockRunsOnlyAfterReset : Obligations.StartedBlockRunsOnlyAfterReset := by
  intro c strict content stream k t hrun
  obtain ⟨u, hstep, hrun⟩ := run_succ_eq_next hrun
  obtain ⟨r, rest, i, hreq, hrow, hreset, rfl⟩ := step_next_rowEffect hstep
  have hi : i = .reset := by
    by_contra hi
    cases hreset hi
  subst hi
  exact ⟨⟨r, rest, hreq, hrow⟩, run_keeps step_keeps_runningAs (runningAs_applyReset _) hrun⟩

/-! ### No fault -/

/-- Settles O16: after the first RESET the invariant gives the bank without which alone a step faults; before it a step
is a RESET or refused. -/
theorem noStepFaults : Obligations.NoStepFaults := by
  intro s f hinv h
  cases hreset : s.isReset with
  | true =>
    obtain ⟨hbank, -⟩ := hinv hreset
    exact step_eq_fault h hbank
  | false =>
    cases hreq : s.requests with
    | nil => cases h.symm.trans (noPendingTransactionNoStep s hreq)
    | cons r rest =>
      obtain ⟨hruns, -, hstops⟩ := onlyResetRunsBeforeTheFirstReset s r rest hreset hreq
      by_cases hk : r.kind = kindReset
      · obtain ⟨t, hstep, -⟩ := hruns hk
        cases h.symm.trans hstep
      · obtain ⟨why, hstep⟩ := hstops hk
        cases h.symm.trans hstep

/-- Settles O49: the index of an offset and of a sector, and the bank of the invariant, without which alone a meaning
faults. -/
theorem busAccessReachesTheArray : Obligations.BusAccessReachesTheArray := by
  intro s addr sector hreset hinv
  obtain ⟨hbank, -⟩ := hinv hreset
  have hoffset : (offsetOf addr).toNat = addr.toNat % 65536 := by simp [offsetOf]
  have hsector : (sectorIndex s.currentBank sector).toNat = s.currentBank.toNat * 65536 + sector.toNat * 4096 :=
    toNat_sectorIndex ..
  refine ⟨?_, busIndex_lt hbank addr, hsector, ?_, fun _ _ hfault => exec_eq_fault hfault hbank⟩
  · rw [State.busIndex, toNat_arrayIndex, hoffset]
  · rw [hsector, Capacity.bytes, bankSize]
    omega

end Sys2Proof.Proofs.Invariant
end

section
/-! PROOFS. A stale `bankSelectArmed` is never observed (10_state.md R34, 42_extended.md R174, decision D9). In Extended
without `writeArmed` the two states are the same. Elsewhere they select the same row (`select_congr`), whose meaning
does not read the flag (`exec_agree`); so one step keeps the relation, and every run does. -/

namespace Sys2Proof.Proofs.StaleBankSelect

open Sys2Proof Sys2Proof.Machine Sys2Proof.Laws Sys2Proof.Proofs.Refusals

/-! ### The relation -/

theorem agree_refl (s : State) : s.agreeButStaleArm s := ⟨rfl, fun _ _ => rfl⟩

theorem result_agree_refl (e : Result) : Result.agreeButStaleArm e e := by
  cases e with
  | next s => exact agree_refl s
  | fault f | refused f => exact rfl

/-- The flag is stale where no Write reads it: outside Extended, and in Extended with `writeArmed` (R34, R174). -/
def StaleArm (s : State) : Prop := s.phase = .extended → s.writeArmed = true

theorem StaleArm.agree {s : State} (h : StaleArm s) (b : Bool) : s.agreeButStaleArm (s.setBankSelectArmed b) :=
  ⟨rfl, fun hp hw => absurd ((h hp).symm.trans hw) (by decide)⟩

theorem StaleArm.next_agree {s : State} (h : StaleArm s) (b : Bool) :
    Result.agreeButStaleArm (.next s) (.next (s.setBankSelectArmed b)) := h.agree b

theorem StaleArm.answer {s : State} (h : StaleArm s) (v : Byte) : StaleArm (s.answer v) := h

theorem StaleArm.writeByte {s : State} (h : StaleArm s) (n : ArrayIndex) (v : Byte) : StaleArm (s.writeByte n v) := h

theorem staleArm_setPhase (s : State) {p : Phase} (hp : p ≠ .extended) : StaleArm (s.setPhase p) :=
  fun h => absurd h hp

theorem staleArm_of_writeArmed {s : State} (hw : s.writeArmed = true) : StaleArm s := fun _ => hw

/-- Related states are the same state, or differ in a stale flag. -/
theorem eq_or_stale_of_agree {s t : State} (h : s.agreeButStaleArm t) :
    t = s ∨ (StaleArm s ∧ ∃ b, t = s.setBankSelectArmed b) := by
  obtain ⟨ht, hread⟩ := h
  by_cases hs : s.phase = .extended ∧ s.writeArmed = false
  · obtain ⟨hp, hw⟩ := hs
    rw [hread hp hw] at ht
    exact .inl ht
  · exact .inr ⟨fun hp => Bool.eq_true_of_not_eq_false fun hw => hs ⟨hp, hw⟩, _, ht⟩

/-! ### The row -/

/-- A stale flag does not change which row a request selects: in Extended with `writeArmed` a Write's row is EXT_PROGRAM,
and the rows outside Extended do not read the flag. -/
theorem select_congr {s : State} {b : Bool} (hstale : StaleArm s) (r : Request) :
    (s.setBankSelectArmed b).select r = s.select r := by
  by_cases hprog : r.kind = kindWrite ∧ s.phase = .extended
  · obtain ⟨hk, hp⟩ := hprog
    rw [request_eq_write hk]
    have hrow (c : Bool) :
        rowFacts (s.setBankSelectArmed c) (.write r.address r.value) (.extProgram r.address r.value) :=
      ⟨hp, rfl, hstale hp⟩
    exact (select_of_rowFacts (hrow b)).trans (select_of_rowFacts (hrow s.bankSelectArmed)).symm
  · refine decode_congr rfl (fun _ => rfl) fun hk => ⟨rfl, rfl, fun hcode => absurd ⟨hk, ?_⟩ hprog⟩
    rw [← phase_ofCode_code s.phase, show s.phase.code = 3#2 from hcode]
    rfl

/-! ### The meaning -/

section Conditions

variable (s : State) (b : Bool) {e e' f f' : Result} (he : Result.agreeButStaleArm e f)

include he

theorem whenSelected_agree (sel : Bool) :
    Result.agreeButStaleArm (whenSelected s sel e) (whenSelected (s.setBankSelectArmed b) sel f) := by
  unfold whenSelected
  rw [setBankSelectArmed_isReset]
  split_ifs
  exacts [he, rfl, rfl]

theorem inCurrentBank_agree :
    Result.agreeButStaleArm (inCurrentBank s e) (inCurrentBank (s.setBankSelectArmed b) f) := by
  unfold inCurrentBank
  rw [setBankSelectArmed_currentBank, setBankSelectArmed_capacity]
  split_ifs
  exacts [he, rfl]

theorem inImage_agree (n : ArrayIndex) :
    Result.agreeButStaleArm (inImage s n e) (inImage (s.setBankSelectArmed b) n f) := by
  unfold inImage
  rw [setBankSelectArmed_capacity]
  split_ifs
  exacts [he, rfl]

theorem ite_agree (c : Bool) (he' : Result.agreeButStaleArm e' f') :
    Result.agreeButStaleArm (if c then e else e') (if c then f else f') := by
  split_ifs
  exacts [he, he']

end Conditions

/-- With a stale flag the rows that read it are not selected, whatever it is (R172 to R174). -/
theorem payload_agree {s : State} (hstale : StaleArm s) (b x y : Bool) (e f : Result) :
    Result.agreeButStaleArm (whenSelected s (s.phase == .extended && !s.writeArmed && x) e)
      (whenSelected (s.setBankSelectArmed b) (s.phase == .extended && !s.writeArmed && y) f) := by
  have hpayload : (s.phase == .extended && !s.writeArmed) = false := by
    rw [Bool.and_eq_false_iff, beq_eq_false_iff_ne, Bool.not_eq_false']
    exact imp_iff_not_or.1 hstale
  rw [hpayload, Bool.false_and, Bool.false_and]
  exact whenSelected_agree (e := .refused .rowNotSelected) (f := .refused .rowNotSelected) s b rfl false

/-- No meaning reads a stale flag. A row that completes leaves the phase and `writeArmed` as they are, or leaves a phase
in which the flag is stale too, or writes the flag itself. -/
theorem exec_agree {s : State} (hstale : StaleArm s) (b : Bool) (i : Instr) :
    Result.agreeButStaleArm (exec i s) (exec i (s.setBankSelectArmed b)) := by
  have hidle (u : State) := (staleArm_setPhase u (p := .idle) (by decide)).next_agree b
  cases i with
  | readId a => exact whenSelected_agree s b ((hstale.answer _).next_agree b) _
  | readArray a =>
    exact whenSelected_agree s b (inCurrentBank_agree s b ((hstale.answer _).next_agree b)) _
  | unlock1 | unlock2 => exact whenSelected_agree s b ((staleArm_setPhase s (by decide)).next_agree b) _
  | idleIgnore => exact whenSelected_agree s b (hstale.next_agree b) _
  | unlock1Ignore =>
    refine whenSelected_agree s b (StaleArm.next_agree (s := s.setPhase _) ?_ b) _
    split_ifs
    exacts [staleArm_setPhase s (by decide), hstale]
  | cmdReadChipId | cmdFinishChipId | cmdErase | cmdSelectBankIgnored | cmdUnknown | cmdDiscard =>
    exact whenSelected_agree s b (hidle _) _
  | cmdEraseChip => exact whenSelected_agree s b (ite_agree (hidle _) s.eraseArmed (hidle _)) _
  | cmdWriteByte =>
    have harmed : StaleArm ((s.setWriteArmed true).setPhase .extended) := staleArm_of_writeArmed rfl
    exact whenSelected_agree s b (harmed.next_agree b) _
  | cmdSelectBank => exact whenSelected_agree s b (result_agree_refl _) _
  | cmdEraseSector =>
    exact whenSelected_agree s b (ite_agree (inCurrentBank_agree s b (hidle _)) s.eraseArmed (hidle _)) _
  | extProgram => exact whenSelected_agree s b (inCurrentBank_agree s b (hidle _)) _
  | extSelectBank | extDiscard => exact payload_agree hstale b _ _ _ _
  | reset => exact result_agree_refl _
  | rawRead => exact whenSelected_agree s b (inImage_agree s b ((hstale.answer _).next_agree b) _) _
  | rawWrite => exact whenSelected_agree s b (inImage_agree s b ((hstale.writeByte _ _).next_agree b) _) _

/-! ### Steps and runs -/

/-- One step keeps the relation, or stops both alike. -/
theorem step_agree {s t : State} (h : s.agreeButStaleArm t) : Result.agreeButStaleArm (step s) (step t) := by
  obtain rfl | ⟨hstale, b, rfl⟩ := eq_or_stale_of_agree h
  · exact result_agree_refl _
  · cases hreq : s.requests with
    | nil =>
      rw [noPendingTransactionNoStep s hreq, noPendingTransactionNoStep (s.setBankSelectArmed b) hreq]
      exact rfl
    | cons r rest =>
      rw [step_of_requests hreq, step_of_requests (s := s.setBankSelectArmed b) hreq, select_congr hstale]
      cases s.select r with
      | error e => exact rfl
      | ok i => exact exec_agree (s := s.consume rest) hstale b i

/-- Settles O51, by induction on the length: each step keeps the relation or stops both runs alike. -/
theorem staleBankSelectArmIsNeverObserved : Obligations.StaleBankSelectArmIsNeverObserved := by
  intro k
  induction k with
  | zero => exact fun s t h => h
  | succ k ih =>
    intro s t h
    have hstep := step_agree h
    rw [run_succ, run_succ]
    cases hs : step s <;> cases ht : step t <;> rw [hs, ht] at hstep
    case next.next u v => exact ih u v hstep
    case fault.fault | refused.refused => exact hstep
    all_goals exact hstep.elim

end Sys2Proof.Proofs.StaleBankSelect
end

section
/-! PROOFS. The rest of 40_unlock.md: the four rows of Idle and Unlock1 (R111 to R114), a Write in Unlock1, and the
unlock sequence (R115), in either strict mode (D8). -/

namespace Sys2Proof.Proofs.UnlockSequence

open Sys2Proof Sys2Proof.Machine Sys2Proof.Laws Sys2Proof.Proofs.UnlockRules Sys2Proof.Proofs.ResetAndHazards

/-- Settles O27, row by row. -/
theorem unlockMeaningsComplete : Obligations.UnlockMeaningsComplete := by
  intro s addr value hreset
  refine ⟨fun hphase => exec_unlock1_next.2 ⟨hreset, hphase, rfl⟩, fun hphase hother => ?idleIgnore,
    fun hphase => exec_unlock2_next.2 ⟨hreset, hphase, rfl⟩, fun hphase hother => ?unlock1Ignore⟩
  case idleIgnore =>
    have hnot : isUnlockWrite1 addr value = false := Bool.eq_false_of_not_eq_true (mt isUnlockWrite1_iff.1 hother)
    exact exec_idleIgnore_next.2 ⟨hreset, ⟨hphase, hnot⟩, rfl⟩
  case unlock1Ignore =>
    have hnot : isUnlockWrite2 addr value = false := Bool.eq_false_of_not_eq_true (mt isUnlockWrite2_iff.1 hother)
    refine exec_unlock1Ignore_next.2 ⟨hreset, ⟨hphase, hnot⟩, ?_⟩
    split_ifs with hstrict
    · exact .inl ⟨hstrict, rfl⟩
    · exact .inr ⟨Bool.eq_false_of_not_eq_true hstrict, rfl⟩

/-- In Unlock1 any Write but the second unlock write falls back to Idle under strict mode (R114, D8). -/
theorem step_of_otherWrite_unlock1_strict {s : State} {a : Addr} {v : Byte} {rest : List Request}
    (hreset : s.isReset = true) (hphase : s.phase = .unlock1) (hstrict : s.strictUnlock = true)
    (h : s.requests = .write a v :: rest) (hother : isUnlockWrite2 a v = false) :
    step s = .next ((s.consume rest).setPhase .idle) := by
  rw [step_of_rowFacts h (i := .unlock1Ignore a v) ⟨hphase, rfl, hother⟩]
  exact exec_unlock1Ignore_next.2 ⟨hreset, ⟨hphase, hother⟩, .inl ⟨hstrict, rfl⟩⟩

/-- Settles O29: the Write is the second unlock write or it is not, and the strict mode says what another one does. -/
theorem writeInUnlock1 : Obligations.WriteInUnlock1 := by
  intro s addr value rest hreset hphase h
  split
  case isTrue hunlock =>
    obtain ⟨rfl, rfl⟩ := hunlock
    exact step_of_unlockWrite2 hreset hphase h
  case isFalse hnot =>
    have hother : isUnlockWrite2 addr value = false := Bool.eq_false_of_not_eq_true (mt isUnlockWrite2_iff.1 hnot)
    split_ifs with hstrict
    · exact step_of_otherWrite_unlock1_strict hreset hphase hstrict h hother
    · exact step_of_otherWrite_unlock1 hreset hphase (Bool.eq_false_of_not_eq_true hstrict) h hother

/-- Settles O30. In Unlock1 the first unlock write is one of the other Writes: it is ignored, or under strict mode it
falls back to Idle, where the second unlock write is ignored. -/
theorem unlockSequenceReachesCommandReady : Obligations.UnlockSequenceReachesCommandReady := by
  intro s rest hreset h
  refine ⟨?_, fun hphase hstrict => ?strict⟩
  · rintro (hphase | ⟨hphase, hstrict⟩)
    · calc Sys2Proof.core.run 2 s
          = Sys2Proof.core.run 1 ((s.consume _).setPhase .unlock1) :=
            run_succ_of_next (step_of_unlockWrite1 hreset hphase h)
        _ = .next (unlocked s rest) := run_succ_of_next (step_of_unlockWrite2 hreset rfl rfl)
    · calc Sys2Proof.core.run 2 s
          = Sys2Proof.core.run 1 (s.consume _) :=
            run_succ_of_next (step_of_otherWrite_unlock1 hreset hphase hstrict h (by decide))
        _ = .next (unlocked s rest) := run_succ_of_next (step_of_unlockWrite2 hreset hphase rfl)
  case strict =>
    calc Sys2Proof.core.run 2 s
        = Sys2Proof.core.run 1 ((s.consume _).setPhase .idle) :=
          run_succ_of_next (step_of_otherWrite_unlock1_strict hreset hphase hstrict h (by decide))
      _ = .next ((s.consume rest).setPhase .idle) :=
          run_succ_of_next (step_of_otherWrite_idle hreset rfl rfl (by decide))

end Sys2Proof.Proofs.UnlockSequence
end

section
/-! PROOFS. The rest of 42_extended.md and 43_read.md: the bank-select payload (R172), and a Read that repeats
(R192). -/

namespace Sys2Proof.Proofs.PayloadAndRead

open Sys2Proof Sys2Proof.Machine Sys2Proof.Laws Sys2Proof.Proofs.ExtendedRules Sys2Proof.Proofs.ReadRules

/-- Settles O41: the Write selects EXT_SELECT_BANK. -/
theorem bankSelectPayloadWrite : Obligations.BankSelectPayloadWrite := by
  intro s value rest hreset hphase hwrite hselect h
  obtain ⟨-, hbankSelect, -⟩ := payloadMeaningsComplete (s.consume rest) 0#32 value hreset hphase
  rw [step_of_rowFacts h (i := .extSelectBank value) ⟨hphase, rfl, hwrite, hselect⟩]
  exact hbankSelect hwrite hselect

/-- Settles O25: the first Read leaves all that the second one reads, so both are the same equation. -/
theorem readsHaveNoSideEffect : Obligations.ReadsHaveNoSideEffect := by
  intro s addr rest hreset hinv h
  obtain ⟨hbank, -⟩ := hinv hreset
  have hfirst := readReturnsIdentifierOrArrayByte s addr (.read addr :: rest) hreset hbank h
  exact ⟨_, _, _, hfirst, readReturnsIdentifierOrArrayByte _ addr rest hreset hbank rfl, rfl, rfl, rfl, rfl⟩

end Sys2Proof.Proofs.PayloadAndRead
end

section
/-! PROOFS. The raw image accessor (44_host_access.md R202 to R206, R209). What a raw
transaction's step is stands once, for both rows (`step_of_raw`). -/

namespace Sys2Proof.Proofs.HostAccess

open Sys2Proof Sys2Proof.Machine Sys2Proof.Laws Sys2Proof.Proofs.MemoryRules Sys2Proof.Proofs.ExceptionRules
open Sys2Proof.Proofs.ResetAndHazards

/-! ### The raw rows -/

/-- A raw access is stopped outside the image (R209). -/
theorem whenSelected_inImage_of_le {s : State} {n : ArrayIndex} (hreset : s.isReset = true)
    (hn : s.capacity.bytes ≤ n.toNat) (e : Result) :
    whenSelected s true (inImage s n e) = .refused .rawIndexOutOfRange := by
  rw [whenSelected, if_pos hreset, if_pos rfl, inImage, if_neg (Nat.not_lt.2 hn)]

/-- Settles O46: inside the image the raw write is one byte written; outside both rows stop. -/
theorem rawMeaningsComplete : Obligations.RawMeaningsComplete := by
  intro s index value hreset
  refine ⟨fun hin => ⟨exec_rawRead_next.2 ⟨hreset, hin, rfl⟩, fun hwf => ?write⟩, fun hout =>
    ⟨whenSelected_inImage_of_le hreset hout _, whenSelected_inImage_of_le hreset hout _⟩⟩
  case write =>
    refine ⟨s.writeByte index value, exec_rawWrite_next.2 ⟨hreset, hin, rfl⟩, ?_, fun j hj => ?_, rfl⟩
    · rw [byteAt_writeByte hwf, if_pos rfl]
    · rw [byteAt_writeByte hwf, if_neg hj]

/-! ### The steps -/

/-- A raw write inside the image writes its byte (R203). -/
theorem step_of_rawWrite {s : State} {n : ArrayIndex} {v : Byte} {rest : List Request}
    (h : s.requests = .rawWrite n v :: rest) (hreset : s.isReset = true) (hn : n.toNat < s.capacity.bytes) :
    step s = .next ((s.consume rest).writeByte n v) := by
  rw [step_of_rowFacts h (i := .rawWrite n v) ⟨rfl, rfl, rfl, hn⟩]
  exact exec_rawWrite_next.2 ⟨hreset, hn, rfl⟩

/-- The step of a raw transaction: its kind is that of one of the two raw rows, and its address is the index (R202,
R203). -/
theorem step_of_raw {s : State} {r : Request} {rest : List Request} (h : s.requests = r :: rest)
    (hreset : s.isReset = true) (hk : r.kind = kindRawRead ∨ r.kind = kindRawWrite)
    (htrans : r.isTransaction s.capacity = true) :
    step s = .next (if r.kind = kindRawRead then (s.consume rest).answer (s.byteAt (r.address.extractLsb' 0 17))
      else (s.consume rest).writeByte (r.address.extractLsb' 0 17) r.value) := by
  have kinds : ∀ k : BitVec 3, k = kindRawRead ∨ k = kindRawWrite →
      k ≠ kindRead ∧ k ≠ kindWrite ∧ k ≠ kindReset := by decide
  obtain ⟨hread, hwrite, hreset'⟩ := kinds r.kind hk
  obtain ⟨-, hrange⟩ :=
    (((isTransaction_iff.1 htrans).resolve_left hread).resolve_left hwrite).resolve_left hreset'
  have haddr : r.address = (r.address.extractLsb' 0 17).setWidth 32 := (setWidth_extractIndex _ _ hrange).symm
  have hn : (r.address.extractLsb' 0 17).toNat < s.capacity.bytes := by rwa [← toNat_setWidth_index, ← haddr]
  split_ifs with hraw
  · rw [step_of_rowFacts h (i := .rawRead _) ⟨hraw, haddr, hn⟩]
    exact exec_rawRead_next.2 ⟨hreset, hn, rfl⟩
  · rw [step_of_rowFacts h (i := .rawWrite _ r.value) ⟨hk.resolve_left hraw, haddr, rfl, hn⟩]
    exact exec_rawWrite_next.2 ⟨hreset, hn, rfl⟩

/-- Settles O47: what a raw step reads of the state is its capacity and its array, which the two states share. -/
theorem rawAccessIgnoresTheDecoder : Obligations.RawAccessIgnoresTheDecoder := by
  intro s t r rest hs ht hk htrans hcap hbanks hsreq htreq
  refine ⟨_, _, step_of_raw hsreq hs hk htrans, step_of_raw htreq ht hk (hcap ▸ htrans), ?_⟩
  have hbyte (n : ArrayIndex) : s.byteAt n = t.byteAt n := by rw [State.byteAt, State.byteAt, hbanks]
  have hself (u : State) : u.sameDecoder u := ⟨rfl, rfl, rfl, rfl, rfl, rfl⟩
  split_ifs
  · exact ⟨congrArg some (hbyte _), hbanks.symm, hself s, hself t⟩
  · exact ⟨rfl, congrArg (memWrite · _ _) hbanks.symm, hself s, hself t⟩

/-- Settles O48: whatever the raw write did, RESET erases the array, and the raw read returns a byte of it. -/
theorem imageLoadedBeforeResetIsLost : Obligations.ImageLoadedBeforeResetIsLost := by
  intro s index value rest hreset hn h
  have hwrite := step_of_rawWrite h hreset hn
  obtain ⟨hreset', -⟩ := resetAlwaysReachesTheResetState ((s.consume _).writeByte index value) _ rfl
  refine ⟨_, (run_succ_of_next hwrite).trans <| (run_succ_of_next hreset').trans <|
    run_succ_of_next (step_of_rawRead rfl rfl hn), rfl⟩

end Sys2Proof.Proofs.HostAccess
end

section
/-! PROOFS. RESYNC (70_reset_and_hazards.md R263): after the Read, its first Write ends in Idle or, where an unlock was
begun, leaves Unlock1; the two Writes that follow end in Idle from either. -/

namespace Sys2Proof.Proofs.Resync

open Sys2Proof Sys2Proof.Machine Sys2Proof.Laws Sys2Proof.Proofs.MemoryRules Sys2Proof.Proofs.UnlockRules
open Sys2Proof.Proofs.CommandRules Sys2Proof.Proofs.ExtendedRules Sys2Proof.Proofs.ResetAndHazards
open Sys2Proof.Proofs.UnlockSequence

/-- What RESYNC leaves as it was. -/
def ResyncKeeps (s t : State) : Prop :=
  s.sameBytes t ∧ t.currentBank = s.currentBank ∧ t.eraseArmed = s.eraseArmed ∧
  t.identificationMode = s.identificationMode

theorem ResyncKeeps.trans {s t u : State} (hst : ResyncKeeps s t) (htu : ResyncKeeps t u) : ResyncKeeps s u := by
  obtain ⟨hbytes, hbank, harm, hmode⟩ := hst
  obtain ⟨hbytes', hbank', harm', hmode'⟩ := htu
  exact ⟨fun i => (hbytes' i).trans (hbytes i), hbank'.trans hbank, harm'.trans harm, hmode'.trans hmode⟩

/-- Programming the byte that is already there changes no byte (R63). -/
theorem sameBytes_programmed {s : State} {a : Addr} {v : Byte} (hwf : Memory.wf s.banks)
    (hv : s.byteAt (s.busIndex a) = v) : s.sameBytes (programmed s a v) := by
  intro j
  by_cases hj : j = s.busIndex a
  · rw [hj, programmed_byteAt_busIndex hwf, hv]
  · exact programmed_byteAt_of_ne hwf v hj

/-- The first Write of RESYNC, phase by phase: no command and no unlock write; as the payload of a program, it writes
the byte that is there. -/
theorem step_of_resyncWrite {s : State} {x : Byte} {rest : List Request} (hreset : s.isReset = true)
    (hbank : s.currentBank.toNat < s.capacity.numBanks) (hwf : Memory.wf s.banks)
    (hx : s.byteAt (s.busIndex 0x0E00FFFF#32) = x) (h : s.requests = .write 0x0E00FFFF#32 x :: rest) :
    ∃ t, step s = .next t ∧ t.isReset = true ∧ t.requests = rest ∧ ResyncKeeps s t ∧
      (t.phase = .idle ∨ t.phase = .unlock1) := by
  have hkeeps : ResyncKeeps s s := ⟨fun _ => rfl, rfl, rfl, rfl⟩
  cases hphase : s.phase with
  | idle => exact ⟨_, step_of_otherWrite_idle hreset hphase h rfl, hreset, rfl, hkeeps, .inl hphase⟩
  | unlock1 =>
    cases hstrict : s.strictUnlock with
    | true =>
      exact ⟨_, step_of_otherWrite_unlock1_strict hreset hphase hstrict h rfl, hreset, rfl, hkeeps, .inl rfl⟩
    | false => exact ⟨_, step_of_otherWrite_unlock1 hreset hphase hstrict h rfl, hreset, rfl, hkeeps, .inr hphase⟩
  | commandReady =>
    exact ⟨_, otherWriteInCommandReadyIsDiscarded s _ x rest hreset hphase h (by decide)
      (fun hsector => absurd hsector.1 (by decide)), hreset, rfl, hkeeps, .inl rfl⟩
  | extended =>
    cases hwrite : s.writeArmed with
    | true =>
      have hbytes := sameBytes_programmed (s := s.consume rest) hwf hx
      exact ⟨_, step_of_program h hreset hphase hwrite hbank, hreset, rfl, ⟨hbytes, rfl, rfl, rfl⟩, .inl rfl⟩
    | false =>
      exact ⟨_, otherPayloadWriteIsDiscarded s _ x rest hreset hphase hwrite
        (fun hselect => absurd hselect.2 (by decide)) h, hreset, rfl, hkeeps, .inl rfl⟩

/-- The other two Writes of RESYNC: ignored in Idle; from Unlock1 the one completes the unlock and the other is
discarded in CommandReady. -/
theorem run_resyncTail {s : State} {x : Byte} {rest : List Request} (hreset : s.isReset = true)
    (hphase : s.phase = .idle ∨ s.phase = .unlock1)
    (h : s.requests = .write 0x0E002AAA#32 0x55#8 :: .write 0x0E00FFFF#32 x :: rest) :
    ∃ t, Sys2Proof.core.run 2 s = .next t ∧ t.phase = .idle ∧ t.requests = rest ∧ ResyncKeeps s t := by
  obtain hphase | hphase := hphase
  · have hfirst := step_of_otherWrite_idle hreset hphase h rfl
    have hsecond := step_of_otherWrite_idle (s := s.consume (.write 0x0E00FFFF#32 x :: rest)) hreset hphase rfl rfl
    exact ⟨_, (run_succ_of_next hfirst).trans (run_succ_of_next hsecond), hphase, rfl, fun _ => rfl, rfl, rfl, rfl⟩
  · have hfirst := step_of_unlockWrite2 hreset hphase h
    have hsecond := otherWriteInCommandReadyIsDiscarded (unlocked s _) 0x0E00FFFF#32 x rest hreset rfl rfl (by decide)
      (fun hsector => absurd hsector.1 (by decide))
    exact ⟨_, (run_succ_of_next hfirst).trans (run_succ_of_next hsecond), rfl, rfl, fun _ => rfl, rfl, rfl, rfl⟩

/-- Settles O52: the Read returns the byte at 0xFFFF of the current bank, since no identifier stands there; the first
Write and the tail do the rest. -/
theorem resyncReachesIdleAndKeepsMemory : Obligations.ResyncReachesIdleAndKeepsMemory := by
  intro s u x rest hreset hinv h hstep hdata
  obtain ⟨hbank, -, -, -, hwf, -⟩ := hinv hreset
  have hid : (s.identificationMode && isIdOffset 0x0E00FFFF#32) = false := Bool.and_false _
  cases hstep.symm.trans (step_of_read_array h hreset hid hbank)
  obtain ⟨v, hwrite, hreset', hreq, hkeeps, hphase⟩ :=
    step_of_resyncWrite (s := (s.consume _).answer _) hreset hbank hwf (Option.some.inj hdata) rfl
  obtain ⟨t, htail, hidle, hrest, hkeeps'⟩ := run_resyncTail hreset' hphase hreq
  obtain ⟨hbytes, hbank', harm, hmode⟩ := hkeeps.trans hkeeps'
  exact ⟨t, (run_succ_of_next hwrite).trans htail, hidle, hbytes, hbank', harm, hmode, hrest⟩

end Sys2Proof.Proofs.Resync
end

section
/-! PROOFS. Placing a table word (log 7): the word's key is presented in its own phase, and under the conditions of
`tableContext` as far as its row reads them. -/

namespace Sys2Proof.Proofs.PlacedWord

open Sys2Proof Sys2Proof.Machine Sys2Proof.Laws Sys2Proof.Proofs.Scope

/-- The decoder state that `State.prepareFor` makes of a Write's key. -/
theorem prepareFor_write (s : State) {key : Key} (hk : keyKind key = kindWrite) :
    (s.prepareFor key).phase.code = keyPhase key ∧ (s.prepareFor key).writeArmed = (tableContext key).writeArmed ∧
    (keyPhase key = Phase.extended.code → (s.prepareFor key).bankSelectArmed = (tableContext key).bankSelectArmed) := by
  rw [State.prepareFor, if_pos hk]
  exact ⟨phase_code_ofCode _, rfl, fun hp => if_pos hp⟩

/-- The identifier test that a prepared state gives a Read's key: a key at an identifier offset is presented in
identification mode. -/
theorem prepareFor_read (s : State) {key : Key} (hk : keyKind key = kindRead) :
    ((s.prepareFor key).identificationMode && isIdOffset (keyAddr key)) =
      ((tableContext key).identificationMode && isIdOffset (keyAddr key)) := by
  cases hid : isIdOffset (keyAddr key) with
  | false => rw [Bool.and_false, Bool.and_false]
  | true =>
    have hmode : (tableContext key).identificationMode = true := by simp [tableContext, hk, hid]
    have hwrite : keyKind key ≠ kindWrite := by rw [hk]; decide
    rw [State.prepareFor, if_neg hwrite, if_pos hmode, hmode]

@[simp] theorem prepareFor_capacity (s : State) (key : Key) : (s.prepareFor key).capacity = s.capacity := by
  unfold State.prepareFor
  split_ifs <;> rfl

/-- The prepared state reads the key's request as the table reads the key. -/
theorem select_prepareFor {s : State} (hcap : s.capacity = constructedCapacity) (key : Key) :
    (s.prepareFor key).select ⟨keyKind key, keyAddr key, keyValue key⟩ = decode (tableContext key) key :=
  calc (s.prepareFor key).select ⟨keyKind key, keyAddr key, keyValue key⟩
      = decode (tableContext key) (fieldsKey (keyKind key) (keyPhase key) (keyAddr key) (keyValue key)) :=
        decode_congr ((prepareFor_capacity s key).trans hcap) (prepareFor_read s) (prepareFor_write s)
    _ = decode (tableContext key) key := by rw [fieldsKey_fields]

/-- A table word that decodes is a key. -/
theorem decodeTableWord_eq_some {nbits w : Nat} {i : Instr} (h : decodeTableWord nbits w = some i) :
    ∃ key, tableKey? nbits w = some key ∧ decode (tableContext key) key = .ok i := by
  unfold decodeTableWord at h
  split at h
  · cases h
  · next key hkey =>
    split at h
    · next hdec => cases h; exact ⟨key, hkey, hdec⟩
    · cases h

/-- Placing a word that is a key prepares for it and presents its request. -/
theorem withFetchWord_of_key (s : State) {nbits w : Nat} {key : Key} (h : tableKey? nbits w = some key) :
    s.withFetchWord nbits w =
      { s.prepareFor key with requests := ⟨keyKind key, keyAddr key, keyValue key⟩ :: s.requests } := by
  simp only [State.withFetchWord, State.placeWord, tableRequest, h]

/-- Settles O7: the placed state selects the row that the word is read as. -/
theorem placedTableWordRuns : Obligations.PlacedTableWordRuns := by
  intro s nbits w i hcap h
  obtain ⟨key, hkey, hdec⟩ := decodeTableWord_eq_some h
  rw [withFetchWord_of_key s hkey]
  exact step_of_select rfl ((select_prepareFor hcap key).trans hdec)

end Sys2Proof.Proofs.PlacedWord
end
